-- ==== Sys2Proof/Word.lean ====
section
/-! DEFINITION. The two bit-vector widths of the block: a 32-bit word and an 8-bit byte (spec/00_scope.md R6, R7). -/

namespace Sys2Proof

/-- `Word32` of R7: the width of a bus access, of a hash-state word and of all core arithmetic (R113). -/
abbrev Word := BitVec 32

/-- A byte lane of a word (R9, R52). -/
abbrev Byte := BitVec 8

end Sys2Proof
end

