-- ==== Sys2Proof/Syntax.lean ====
section
/-! DEFINITION. What the host can issue: the two encoded formats of spec/30_encoding.md R70, the commands of R71,
the error codes of spec/60_exceptions.md R200, and the instructions, one constructor per row of
spec/opcode_table.json. -/

namespace Sys2Proof

/-- The outcome codes of R200. Codes 7 to 15 are never produced, so they have no name here. -/
inductive ErrCode where
  | ok | useAfterFinish | saveFinished | badOp | badLen | badSlot | emptySlot
  deriving DecidableEq, Repr

/-- What the decoder of R76 returns for a well-formed command word: one of the commands of R71 with its operand. -/
inductive Cmd where
  | nop
  | reset
  /-- UPDATE n, `n` = LEN (R72). -/
  | update (n : BitVec 7)
  | finish
  | clean
  /-- SAVE, RESTORE and DROP name a slot, `slot` = SLOT (R73). -/
  | save (slot : BitVec 4)
  | restore (slot : BitVec 4)
  | drop (slot : BitVec 4)
  deriving DecidableEq, Repr

/-- One host transaction as it is encoded, in one of the two formats of R70 (notes/assumptions/9.md). -/
inductive HostWord where
  /-- The CMD format: a 32-bit command word written to offset 0x00 (R71, R79). -/
  | cmd (c : Word)
  /-- The BUS format: the 7-bit selector `WE, WOFF` and the 32 write-data lines (R70, R77). A read does not look at
  the write-data lines (notes/assumptions/17.md). -/
  | bus (sel : BitVec 7) (data : Word)
  deriving DecidableEq, Repr

/-- The instructions: one constructor per row of spec/opcode_table.json, in the table's order.
An operand keeps every value its bits can hold, the illegal ones included, because the spec gives those an outcome
too (R202; notes/assumptions/10.md). -/
inductive Instr where
  /-- R141. -/
  | nop
  /-- R142. -/
  | reset
  /-- R143, `n` = LEN, 65 to 127 giving BAD_LEN. -/
  | update (n : BitVec 7)
  /-- R145. -/
  | finish
  /-- R147. -/
  | clean
  /-- R150, `slot` = SLOT, NUM_SLOTS and above giving BAD_SLOT. -/
  | save (slot : BitVec 4)
  /-- R152. -/
  | restore (slot : BitVec 4)
  /-- R155. -/
  | drop (slot : BitVec 4)
  /-- R75: a command word whose OP is 0x8 to 0xF. -/
  | reservedOpcode (c : Word)
  /-- R180: write of `v` to CMD. -/
  | wrCmd (v : Word)
  /-- R181. -/
  | rdStatus
  /-- R182. -/
  | rdBytesLo
  /-- R183. -/
  | rdBytesHi
  /-- R184. -/
  | rdDigest (k : BitVec 2)
  /-- R186. -/
  | wrMsg (k : BitVec 4) (v : Word)
  /-- R185: a read of the write-only CMD. -/
  | rdCmd
  /-- R185: a read of the write-only MSGk. -/
  | rdMsg (k : BitVec 4)
  /-- R185: a read of selector 0x08 to 0x0F. -/
  | rdReserved08 (k : BitVec 3)
  /-- R185: a read of selector 0x20 to 0x3F. -/
  | rdReserved20 (k : BitVec 5)
  /-- R185: a write to the read-only STATUS. -/
  | wrStatus (v : Word)
  /-- R185: a write to the read-only BYTES_LO (`hi` = 0) or BYTES_HI (`hi` = 1). -/
  | wrBytes (hi : BitVec 1) (v : Word)
  /-- R185: a write to the read-only DIGESTk. -/
  | wrDigest (k : BitVec 2) (v : Word)
  /-- R185: a write of selector 0x48 to 0x4F. -/
  | wrReserved48 (k : BitVec 3) (v : Word)
  /-- R185: a write of selector 0x60 to 0x7F. -/
  | wrReserved60 (k : BitVec 5) (v : Word)
  deriving DecidableEq, Repr

end Sys2Proof
end

