-- ==== Sys2Proof/Config.lean ====
section
/-! DEFINITION. What is fixed for the block: its one sized parameter, and the free values the spec leaves open.
The opaque constants have no body: no proof can learn a value of them (notes/assumptions/3.md). -/

namespace Sys2Proof.Config

/-- NUM_SLOTS of R6: the spec's value is 2, and 1 to 8 is the range a model may take (notes/assumptions/8.md). -/
def numSlots : Nat := 2

/-- A draw of STATUS.FINISHED read while BUSY=1 (R187, "any value"), indexed by the state's draw counter. -/
opaque freeFinished : Nat → Bool

/-- A draw of STATUS.BUFLEN read while BUSY=1 (R187). -/
opaque freeBuflen : Nat → BitVec 6

/-- A draw of STATUS.SLOTV read while BUSY=1 (R187): the bits of the slots there are. -/
opaque freeSlotv : Nat → BitVec numSlots

/-- A draw of BYTES_LO read while BUSY=1 (R187). -/
opaque freeBytesLo : Nat → Word

/-- A draw of BYTES_HI read while BUSY=1 (R187). -/
opaque freeBytesHi : Nat → Word

end Sys2Proof.Config
end

