-- ==== Sys2Proof/WellFormed.lean ====
section
/-! DEFINITION. Which instruction terms an encoding stands for (`wellFormed`), and which of those have their operand
in the legal range of spec/30_encoding.md R72 and R73 (`legal`). -/

namespace Sys2Proof

/-- A term is well formed when some host word encodes it. Operand widths are in the types; the one check left is that
the word of a reserved-opcode term does have a reserved OP, bits [3:0] (R71, R75). -/
def Instr.wellFormed : Instr → Bool
  | .nop | .reset | .update _ | .finish | .clean | .save _ | .restore _ | .drop _ => true
  | .reservedOpcode c => 8 ≤ (c.extractLsb' 0 4).toNat
  | .wrCmd _ | .rdStatus | .rdBytesLo | .rdBytesHi | .rdDigest _ | .wrMsg _ _ => true
  | .rdCmd | .rdMsg _ | .rdReserved08 _ | .rdReserved20 _ => true
  | .wrStatus _ | .wrBytes _ _ | .wrDigest _ _ | .wrReserved48 _ _ | .wrReserved60 _ _ => true

/-- The legal operand ranges: LEN 0 to 64 (R72) and SLOT below NUM_SLOTS (R73). An illegal operand is not refused:
the command is rejected with BAD_LEN or BAD_SLOT. -/
def Instr.legal : Instr → Bool
  | .update n => n.toNat ≤ 64
  | .save k | .restore k | .drop k => k.toNat < Config.numSlots
  | .nop | .reset | .finish | .clean | .reservedOpcode _ => true
  | .wrCmd _ | .rdStatus | .rdBytesLo | .rdBytesHi | .rdDigest _ | .wrMsg _ _ => true
  | .rdCmd | .rdMsg _ | .rdReserved08 _ | .rdReserved20 _ => true
  | .wrStatus _ | .wrBytes _ _ | .wrDigest _ _ | .wrReserved48 _ _ | .wrReserved60 _ _ => true

end Sys2Proof
end

