-- ==== Sys2Proof/Decode.lean ====
section
/-! DEFINITION. The decoder, the encoder and the opcode table of spec/30_encoding.md.
`decode` reads a host word of either format as an instruction and rejects a malformed command word by its code;
`decodeCmd` is the block's own decoder of R76, which a write to CMD runs. -/

namespace Sys2Proof

/-- OP, bits [3:0] (R71). -/
def opField (c : Word) : BitVec 4 := c.extractLsb' 0 4

/-- LEN, bits [14:8] (R71, R72). -/
def lenField (c : Word) : BitVec 7 := c.extractLsb' 8 7

/-- SLOT, bits [19:16] (R71, R73). -/
def slotField (c : Word) : BitVec 4 := c.extractLsb' 16 4

/-- R74, NOP, RESET, FINISH and CLEAN: bits [31:4] are zero. -/
def plainBitsClear (c : Word) : Bool := c.extractLsb' 4 28 == 0

/-- R74, UPDATE: bits [31:15] and [7:4] are zero. -/
def updateBitsClear (c : Word) : Bool := c.extractLsb' 15 17 == 0 && c.extractLsb' 4 4 == 0

/-- R74, SAVE, RESTORE and DROP: bits [31:20] and [15:4] are zero. -/
def slotBitsClear (c : Word) : Bool := c.extractLsb' 20 12 == 0 && c.extractLsb' 4 12 == 0

/-- `x` if the must-be-zero bits are zero, and BAD_OP otherwise (R74, R75). -/
def ifClear {α : Type} (clear : Bool) (x : α) : Except ErrCode α :=
  if clear then .ok x else .error .badOp

/-- `x` if the must-be-zero bits are zero and the operand is in range; the bits are checked first (R203). -/
def ifClearInRange {α : Type} (clear inRange : Bool) (code : ErrCode) (x : α) : Except ErrCode α :=
  if clear then (if inRange then .ok x else .error code) else .error .badOp

/-- The block's command decoder, R76, total on every word. The order of its checks is the precedence of R203. -/
def decodeCmd (numSlots : Nat) (c : Word) : Except ErrCode Cmd :=
  let n := lenField c
  let k := slotField c
  match (opField c).toNat with
  | 0 => ifClear (plainBitsClear c) .nop
  | 1 => ifClear (plainBitsClear c) .reset
  | 2 => ifClearInRange (updateBitsClear c) (n.toNat ≤ 64) .badLen (.update n)
  | 3 => ifClear (plainBitsClear c) .finish
  | 4 => ifClear (plainBitsClear c) .clean
  | 5 => ifClearInRange (slotBitsClear c) (k.toNat < numSlots) .badSlot (.save k)
  | 6 => ifClearInRange (slotBitsClear c) (k.toNat < numSlots) .badSlot (.restore k)
  | 7 => ifClearInRange (slotBitsClear c) (k.toNat < numSlots) .badSlot (.drop k)
  | _ => .error .badOp

/-- The CMD rows of the opcode table: a word that matches a row is that row's instruction, and a word that breaks R74
matches none and is rejected with BAD_OP. -/
def decodeCmdRow (c : Word) : Except ErrCode Instr :=
  match (opField c).toNat with
  | 0 => ifClear (plainBitsClear c) .nop
  | 1 => ifClear (plainBitsClear c) .reset
  | 2 => ifClear (updateBitsClear c) (.update (lenField c))
  | 3 => ifClear (plainBitsClear c) .finish
  | 4 => ifClear (plainBitsClear c) .clean
  | 5 => ifClear (slotBitsClear c) (.save (slotField c))
  | 6 => ifClear (slotBitsClear c) (.restore (slotField c))
  | 7 => ifClear (slotBitsClear c) (.drop (slotField c))
  | _ => .ok (.reservedOpcode c)

/-- The write rows of R77 (`WE` = 1), by word offset. -/
def decodeWrite (woff : BitVec 6) (v : Word) : Instr :=
  if woff.extractLsb' 5 1 == 1 then .wrReserved60 (woff.extractLsb' 0 5) v
  else if woff.extractLsb' 4 1 == 1 then .wrMsg (woff.extractLsb' 0 4) v
  else if woff.extractLsb' 3 1 == 1 then .wrReserved48 (woff.extractLsb' 0 3) v
  else if woff.extractLsb' 2 1 == 1 then .wrDigest (woff.extractLsb' 0 2) v
  else if woff.extractLsb' 1 1 == 1 then .wrBytes (woff.extractLsb' 0 1) v
  else if woff.extractLsb' 0 1 == 1 then .wrStatus v
  else .wrCmd v

/-- The read rows of R77 (`WE` = 0), by word offset. -/
def decodeRead (woff : BitVec 6) : Instr :=
  if woff.extractLsb' 5 1 == 1 then .rdReserved20 (woff.extractLsb' 0 5)
  else if woff.extractLsb' 4 1 == 1 then .rdMsg (woff.extractLsb' 0 4)
  else if woff.extractLsb' 3 1 == 1 then .rdReserved08 (woff.extractLsb' 0 3)
  else if woff.extractLsb' 2 1 == 1 then .rdDigest (woff.extractLsb' 0 2)
  else if woff.extractLsb' 1 1 == 1 then (if woff.extractLsb' 0 1 == 1 then .rdBytesHi else .rdBytesLo)
  else if woff.extractLsb' 0 1 == 1 then .rdStatus
  else .rdCmd

/-- Is the selector a write? `WE` is bit 6 (R70). -/
def isWrite (sel : BitVec 7) : Bool := sel.extractLsb' 6 1 == 1

/-- R77: all 128 selectors name a transaction. -/
def decodeBus (sel : BitVec 7) (v : Word) : Instr :=
  if isWrite sel then decodeWrite (sel.extractLsb' 0 6) v else decodeRead (sel.extractLsb' 0 6)

/-- The instruction a host word stands for, or the code that rejects it. -/
def decode : HostWord → Except ErrCode Instr
  | .cmd c => decodeCmdRow c
  | .bus sel v => .ok (decodeBus sel v)

/-- The word of R79 for a command: `OP`, `OP | n << 8` or `OP | s << 16`. -/
def encodeCmd : Cmd → Word
  | .nop => 0#28 ++ 0x0#4
  | .reset => 0#28 ++ 0x1#4
  | .update n => 0#17 ++ n ++ 0#4 ++ 0x2#4
  | .finish => 0#28 ++ 0x3#4
  | .clean => 0#28 ++ 0x4#4
  | .save k => 0#12 ++ k ++ 0#12 ++ 0x5#4
  | .restore k => 0#12 ++ k ++ 0#12 ++ 0x6#4
  | .drop k => 0#12 ++ k ++ 0#12 ++ 0x7#4

/-- The host word of an instruction (R71, R77). Reads drive no data, so their data lines are zero here. -/
def encode : Instr → HostWord
  | .nop => .cmd (encodeCmd .nop)
  | .reset => .cmd (encodeCmd .reset)
  | .update n => .cmd (encodeCmd (.update n))
  | .finish => .cmd (encodeCmd .finish)
  | .clean => .cmd (encodeCmd .clean)
  | .save k => .cmd (encodeCmd (.save k))
  | .restore k => .cmd (encodeCmd (.restore k))
  | .drop k => .cmd (encodeCmd (.drop k))
  | .reservedOpcode c => .cmd c
  | .wrCmd v => .bus 0b1_000000#7 v
  | .rdStatus => .bus 0b0_000001#7 0
  | .rdBytesLo => .bus 0b0_000010#7 0
  | .rdBytesHi => .bus 0b0_000011#7 0
  | .rdDigest k => .bus (0b0_0001#5 ++ k) 0
  | .wrMsg k v => .bus (0b1_01#3 ++ k) v
  | .rdCmd => .bus 0b0_000000#7 0
  | .rdMsg k => .bus (0b0_01#3 ++ k) 0
  | .rdReserved08 k => .bus (0b0_001#4 ++ k) 0
  | .rdReserved20 k => .bus (0b0_1#2 ++ k) 0
  | .wrStatus v => .bus 0b1_000001#7 v
  | .wrBytes hi v => .bus (0b1_00001#6 ++ hi) v
  | .wrDigest k v => .bus (0b1_0001#5 ++ k) v
  | .wrReserved48 k v => .bus (0b1_001#4 ++ k) v
  | .wrReserved60 k v => .bus (0b1_1#2 ++ k) v

/-- A host word with the write-data lines of a read set to zero: what `encode` writes. -/
def HostWord.canonical : HostWord → HostWord
  | .cmd c => .cmd c
  | .bus sel v => if isWrite sel then .bus sel v else .bus sel 0

/-- The command word an instruction of the CMD format is written as (R79), if it is one. -/
def Instr.cmdWord? : Instr → Option Word
  | .nop => some (encodeCmd .nop)
  | .reset => some (encodeCmd .reset)
  | .update n => some (encodeCmd (.update n))
  | .finish => some (encodeCmd .finish)
  | .clean => some (encodeCmd .clean)
  | .save k => some (encodeCmd (.save k))
  | .restore k => some (encodeCmd (.restore k))
  | .drop k => some (encodeCmd (.drop k))
  | .reservedOpcode c => some c
  | .wrCmd _ | .rdStatus | .rdBytesLo | .rdBytesHi | .rdDigest _ | .wrMsg _ _ => none
  | .rdCmd | .rdMsg _ | .rdReserved08 _ | .rdReserved20 _ => none
  | .wrStatus _ | .wrBytes _ _ | .wrDigest _ _ | .wrReserved48 _ _ | .wrReserved60 _ _ => none

/-- The instruction of the CMD format that a command is (R71). -/
def Cmd.toInstr : Cmd → Instr
  | .nop => .nop
  | .reset => .reset
  | .update n => .update n
  | .finish => .finish
  | .clean => .clean
  | .save k => .save k
  | .restore k => .restore k
  | .drop k => .drop k

/-- A row of spec/opcode_table.json: a word of its format belongs to it when the bits under `mask` equal `pattern`. -/
structure OpcodeRow where
  /-- CMD format (a 32-bit command word) rather than BUS format (a 7-bit selector). -/
  cmdFormat : Bool
  pattern : Nat
  mask : Nat
  deriving DecidableEq, Repr

/-- The table's match and mask of an instruction's row. -/
def Instr.row : Instr → OpcodeRow
  | .nop => ⟨true, 0x00000000, 0xFFFFFFFF⟩
  | .reset => ⟨true, 0x00000001, 0xFFFFFFFF⟩
  | .update _ => ⟨true, 0x00000002, 0xFFFF80FF⟩
  | .finish => ⟨true, 0x00000003, 0xFFFFFFFF⟩
  | .clean => ⟨true, 0x00000004, 0xFFFFFFFF⟩
  | .save _ => ⟨true, 0x00000005, 0xFFF0FFFF⟩
  | .restore _ => ⟨true, 0x00000006, 0xFFF0FFFF⟩
  | .drop _ => ⟨true, 0x00000007, 0xFFF0FFFF⟩
  | .reservedOpcode _ => ⟨true, 0x00000008, 0x00000008⟩
  | .wrCmd _ => ⟨false, 0x40, 0x7F⟩
  | .rdStatus => ⟨false, 0x01, 0x7F⟩
  | .rdBytesLo => ⟨false, 0x02, 0x7F⟩
  | .rdBytesHi => ⟨false, 0x03, 0x7F⟩
  | .rdDigest _ => ⟨false, 0x04, 0x7C⟩
  | .wrMsg _ _ => ⟨false, 0x50, 0x70⟩
  | .rdCmd => ⟨false, 0x00, 0x7F⟩
  | .rdMsg _ => ⟨false, 0x10, 0x70⟩
  | .rdReserved08 _ => ⟨false, 0x08, 0x78⟩
  | .rdReserved20 _ => ⟨false, 0x20, 0x60⟩
  | .wrStatus _ => ⟨false, 0x41, 0x7F⟩
  | .wrBytes _ _ => ⟨false, 0x42, 0x7E⟩
  | .wrDigest _ _ => ⟨false, 0x44, 0x7C⟩
  | .wrReserved48 _ _ => ⟨false, 0x48, 0x78⟩
  | .wrReserved60 _ _ => ⟨false, 0x60, 0x60⟩

/-- Does a host word belong to a row of the table? -/
def OpcodeRow.covers (r : OpcodeRow) : HostWord → Bool
  | .cmd c => r.cmdFormat && c &&& BitVec.ofNat 32 r.mask == BitVec.ofNat 32 r.pattern
  | .bus sel _ => !r.cmdFormat && sel &&& BitVec.ofNat 7 r.mask == BitVec.ofNat 7 r.pattern

/-- The 24 rows of the table, in its order. -/
def opcodeTable : List OpcodeRow :=
  [Instr.nop, .reset, .update 0, .finish, .clean, .save 0, .restore 0, .drop 0, .reservedOpcode 8].map Instr.row ++
  [Instr.wrCmd 0, .rdStatus, .rdBytesLo, .rdBytesHi, .rdDigest 0, .wrMsg 0 0, .rdCmd, .rdMsg 0].map Instr.row ++
  [Instr.rdReserved08 0, .rdReserved20 0, .wrStatus 0, .wrBytes 0 0, .wrDigest 0 0].map Instr.row ++
  [Instr.wrReserved48 0 0, .wrReserved60 0 0].map Instr.row

/-- The host word whose bits, numbered as spec/opcode_table.json numbers them, are `w`. A selector row has 7 bits, so
8 in whole bytes, and its write data would count on from bit 8; a command row has 32 (notes/assumptions/14.md). -/
def tableHostWord (nbits w : Nat) : HostWord :=
  if nbits ≤ 8 then .bus (BitVec.ofNat 7 w) (BitVec.ofNat 32 (w / 256))
  else if nbits ≤ 32 then .cmd (BitVec.ofNat 32 w)
  else .bus (BitVec.ofNat 7 w) (BitVec.ofNat 32 (w / 256))

/-- The instruction this decoder reads from the table-numbered word `w`. -/
def decodeTableWord (nbits w : Nat) : Option Instr :=
  match decode (tableHostWord nbits w) with
  | .ok i => some i
  | .error _ => none

end Sys2Proof
end

