-- ==== Sys2Proof/Machine/State.lean ====
section
/-! DEFINITION. The state of the block (spec/10_state.md), its reset value (R36), the events that drive it, and the
two reason types of a step that stops. -/

namespace Sys2Proof.Machine

/-- The reasons a step could stop with a fault. There are none: the block has no trap (R205), an error is a code in
STATUS.ERR (R204) and a bus-protocol violation is STATUS.OVR (R206), both next states (notes/assumptions/16.md). -/
inductive Fault where
  deriving DecidableEq, Repr

/-- The reasons a step could be refused. -/
inductive Refusal where
  /-- Raised by an arm of `exec` whose instruction has no meaning yet. Safe: nothing is proved of it. No arm is. -/
  | notModelled (mnemonic : String)
  deriving DecidableEq, Repr

/-- The working state of the compression core: the variables `a..d` (R22), the schedule `W` (R23), and the sequencer's
round and block counters (R24). No interface observes it between commands (R35). -/
structure CoreRegs where
  a : Word
  b : Word
  c : Word
  d : Word
  W : Vector Word 16
  round : BitVec 6
  block : BitVec 1
  deriving DecidableEq, Repr

/-- A save slot (R27). -/
structure Slot where
  valid : Bool
  H : Vector Word 4
  buf : Vector Byte 64
  BL : BitVec 6
  BH : BitVec 64
  deriving DecidableEq, Repr

/-- What can happen next, and who does it (R5): the host issues a transaction, the core takes its complete step (R240),
or the reset input changes level (R230). -/
inductive Event where
  | host (w : HostWord)
  | complete
  | rst (level : Bool)
  deriving DecidableEq, Repr

/-- The state. The fields down to `ERR` are the block's; `rst` is the level of its reset input; the last three are the
model's own (notes/assumptions/1.md, 3.md, 4.md). -/
structure State where
  /-- A, B, C, D (R20). -/
  H : Vector Word 4
  /-- R22 to R24. -/
  core : CoreRegs
  /-- The accumulation buffer (R25). -/
  buf : Vector Byte 128
  /-- `bufferLength` (R26). -/
  BL : BitVec 6
  /-- `bytesHashed` (R28). -/
  BH : BitVec 64
  /-- `finished` (R29). -/
  FIN : Bool
  /-- R27. -/
  slots : Vector Slot Config.numSlots
  /-- The message window (R32). -/
  MSG : Vector Word 16
  /-- R34. -/
  BUSY : Bool
  OVR : Bool
  ERR : ErrCode
  /-- The level of the input `rst` (R230). -/
  rst : Bool
  /-- The value the last host read returned. -/
  rdata : Word
  /-- How many free values have been drawn. -/
  draws : Nat
  /-- What happens next, first event first. -/
  pending : List Event
  deriving DecidableEq, Repr

/-- The initial hash state (R21). -/
def IV : Vector Word 4 := #v[0x67452301, 0xefcdab89, 0x98badcfe, 0x10325476]

/-- The core's working state after hardware reset: `a..d` and `W` zero (R36); the counters zero too
(notes/assumptions/7.md). -/
def CoreRegs.zero : CoreRegs := ⟨0, 0, 0, 0, Vector.replicate 16 0, 0, 0⟩

/-- An empty slot: every field zero and `valid` = 0 (R27). -/
def Slot.empty : Slot := ⟨false, Vector.replicate 4 0, Vector.replicate 64 0, 0, 0⟩

/-- The machine right after hardware reset, with `rst` released (R36, R232). -/
def State.reset : State where
  H := IV
  core := CoreRegs.zero
  buf := Vector.replicate 128 0
  BL := 0
  BH := 0
  FIN := false
  slots := Vector.replicate Config.numSlots Slot.empty
  MSG := Vector.replicate 16 0
  BUSY := false
  OVR := false
  ERR := .ok
  rst := false
  rdata := 0
  draws := 0
  pending := []

end Sys2Proof.Machine
end

