-- ==== Sys2Proof/Machine/Operands.lean ====
section
/-! DEFINITION. The operand forms: bytes and words (spec/00_scope.md R8 to R10, spec/20_memory.md R52, R53), the bytes
of the message window, and reading and filling the byte arrays. -/

namespace Sys2Proof.Machine

/-- Left rotation by 1 to 31 places (R8). -/
def rotl32 (x : Word) (s : Nat) : Word := (x <<< s) ||| (x >>> (32 - s))

/-- `LE32` of R9: four bytes as a little-endian word. -/
def le32 (b0 b1 b2 b3 : Byte) : Word := b3 ++ b2 ++ b1 ++ b0

/-- Byte `j` of a word, bits [8j+7:8j]: one entry of `LEbytes` (R9), one bus lane (R52). -/
def laneOf (w : Word) (j : Nat) : Byte := w.extractLsb' (8 * j) 8

/-- `LEbytes` of R9. -/
def leBytes (w : Word) : List Byte := [laneOf w 0, laneOf w 1, laneOf w 2, laneOf w 3]

/-- Byte `j` of a byte array. -/
def byteOf {n : Nat} (v : Vector Byte n) (j : Nat) : Byte := v[j]?.getD 0

/-- Word `j` of a word array. -/
def wordOf {n : Nat} (v : Vector Word n) (j : Nat) : Word := v[j]?.getD 0

/-- `MsgByte(j)` of R10: the message byte in lane `j mod 4` of window word `j div 4` (R52). -/
def msgByte (MSG : Vector Word 16) (j : Nat) : Byte := laneOf (wordOf MSG (j / 4)) (j % 4)

/-- Is `j` one of `lo .. hi-1`? -/
def within (lo hi j : Nat) : Bool := Nat.ble lo j && Nat.blt j hi

/-- Over a list whose first entry has index `j`: each entry with an index in `lo .. hi-1` is replaced by `f` of its
index. -/
def fillFrom (lo hi : Nat) (f : Nat → Byte) : Nat → List Byte → List Byte
  | _, [] => []
  | j, b :: bs => (if within lo hi j then f j else b) :: fillFrom lo hi f (j + 1) bs

theorem fillFrom_length (lo hi : Nat) (f : Nat → Byte) (j : Nat) (bs : List Byte) :
    (fillFrom lo hi f j bs).length = bs.length := by
  induction bs generalizing j with
  | nil => rfl
  | cons b bs ih => simp [fillFrom, ih]

/-- The loop `for j in lo .. hi-1: v[j] <- f(j)` of R143, R145 and R152: every other byte keeps its value. -/
def fill {n : Nat} (v : Vector Byte n) (lo hi : Nat) (f : Nat → Byte) : Vector Byte n :=
  ⟨⟨fillFrom lo hi f 0 v.toList⟩, by simp [fillFrom_length]⟩

/-- The 64 bytes of a byte source from `pos` on: one block (R14, R112). -/
def blockAt (src : Nat → Byte) (pos : Nat) : Vector Byte 64 :=
  ⟨⟨(List.range 64).map fun j => src (pos + j)⟩, by simp⟩

end Sys2Proof.Machine
end

