-- ==== Sys2Proof/Machine/Compression.lean ====
section
/-! DEFINITION. The compression core (spec/40_compression_core.md): the round functions and tables, the pure function
`compress` of R111, and the sequenced datapath that the commands run (R24, R115). -/

namespace Sys2Proof.Machine

/-- R101. -/
def fF (b c d : Word) : Word := d ^^^ (b &&& (c ^^^ d))

/-- R102. -/
def fG (b c d : Word) : Word := c ^^^ (d &&& (b ^^^ c))

/-- R103. -/
def fH (b c d : Word) : Word := b ^^^ c ^^^ d

/-- R104. -/
def fI (b c d : Word) : Word := c ^^^ (b ||| ~~~d)

/-- The function of round `i` (R109). -/
def roundFn (i : Nat) (b c d : Word) : Word :=
  if i < 16 then fF b c d else if i < 32 then fG b c d else if i < 48 then fH b c d else fI b c d

/-- The schedule index of round `i` (R105). -/
def schedIndex (i : Nat) : Nat :=
  if i < 16 then i else if i < 32 then (5 * i + 1) % 16 else if i < 48 then (3 * i + 5) % 16 else (7 * i) % 16

/-- The table `T` of R106: one row per group of 16 rounds. -/
def rotationRows : List (List Nat) := [[7, 12, 17, 22], [5, 9, 14, 20], [4, 11, 16, 23], [6, 10, 15, 21]]

/-- `S[i] = T[i div 16][i mod 4]` (R106). -/
def rotationAmount (i : Nat) : Nat := (rotationRows.getD (i / 16) []).getD (i % 4) 0

/-- The table `K` of R107, by groups of 16 rounds. -/
def sineRows : List (List Word) :=
  [[0xd76aa478, 0xe8c7b756, 0x242070db, 0xc1bdceee, 0xf57c0faf, 0x4787c62a, 0xa8304613, 0xfd469501,
    0x698098d8, 0x8b44f7af, 0xffff5bb1, 0x895cd7be, 0x6b901122, 0xfd987193, 0xa679438e, 0x49b40821]] ++
  [[0xf61e2562, 0xc040b340, 0x265e5a51, 0xe9b6c7aa, 0xd62f105d, 0x02441453, 0xd8a1e681, 0xe7d3fbc8,
    0x21e1cde6, 0xc33707d6, 0xf4d50d87, 0x455a14ed, 0xa9e3e905, 0xfcefa3f8, 0x676f02d9, 0x8d2a4c8a]] ++
  [[0xfffa3942, 0x8771f681, 0x6d9d6122, 0xfde5380c, 0xa4beea44, 0x4bdecfa9, 0xf6bb4b60, 0xbebfbc70,
    0x289b7ec6, 0xeaa127fa, 0xd4ef3085, 0x04881d05, 0xd9d4d039, 0xe6db99e5, 0x1fa27cf8, 0xc4ac5665]] ++
  [[0xf4292244, 0x432aff97, 0xab9423a7, 0xfc93a039, 0x655b59c3, 0x8f0ccc92, 0xffeff47d, 0x85845dd1,
    0x6fa87e4f, 0xfe2ce6e0, 0xa3014314, 0x4e0811a1, 0xf7537e82, 0xbd3af235, 0x2ad7d2bb, 0xeb86d391]]

/-- `K[i]` (R107). -/
def sineConstant (i : Nat) : Word := (sineRows.getD (i / 16) []).getD (i % 16) 0

/-- The working variables `a, b, c, d` (R22). -/
structure Work where
  a : Word
  b : Word
  c : Word
  d : Word
  deriving DecidableEq, Repr

/-- The 16 little-endian words of a block (R100). -/
def decodeBlock (blk : Vector Byte 64) : Vector Word 16 :=
  ⟨⟨(List.range 16).map fun j =>
    le32 (byteOf blk (4 * j)) (byteOf blk (4 * j + 1)) (byteOf blk (4 * j + 2)) (byteOf blk (4 * j + 3))⟩, by simp⟩

/-- The sum `T` of R109. -/
def roundSum (W : Vector Word 16) (i : Nat) (v : Work) : Word :=
  roundFn i v.b v.c v.d + v.a + sineConstant i + wordOf W (schedIndex i)

/-- Round `i`, R109, with the update that spec/90_conflicts.md C1 makes normative: all four variables are written at
once from the old values. -/
def roundStep (W : Vector Word 16) (i : Nat) (v : Work) : Work :=
  ⟨v.d, v.b + rotl32 (roundSum W i v) (rotationAmount i), v.b, v.c⟩

/-- Rounds `0 .. k-1` in order (R110). -/
def rounds (W : Vector Word 16) : Nat → Work → Work
  | 0, v => v
  | k + 1, v => roundStep W k (rounds W k v)

/-- R108. -/
def loadWork (h : Vector Word 4) : Work := ⟨wordOf h 0, wordOf h 1, wordOf h 2, wordOf h 3⟩

/-- The feed-forward addition that ends a compression (R111). -/
def addWork (h : Vector Word 4) (v : Work) : Vector Word 4 :=
  #v[wordOf h 0 + v.a, wordOf h 1 + v.b, wordOf h 2 + v.c, wordOf h 3 + v.d]

/-- `Compress(h, blk)`, R111. -/
def compress (h : Vector Word 4) (blk : Vector Byte 64) : Vector Word 4 :=
  addWork h (rounds (decodeBlock blk) 64 (loadWork h))

/-- The working variables as the datapath holds them. -/
def CoreRegs.work (r : CoreRegs) : Work := ⟨r.a, r.b, r.c, r.d⟩

/-- The start of a compression of block number `q` of its command: the schedule and the variables are loaded (R100,
R108) and the round counter starts at 0 (R24). -/
def CoreRegs.load (h : Vector Word 4) (blk : Vector Byte 64) (q : Nat) : CoreRegs :=
  let v := loadWork h
  ⟨v.a, v.b, v.c, v.d, decodeBlock blk, 0, BitVec.ofNat 1 q⟩

/-- One round of the datapath: round `r.round` of R109, and the counter moves to the next round (R110). -/
def CoreRegs.tick (r : CoreRegs) : CoreRegs :=
  let v := roundStep r.W r.round.toNat r.work
  { r with a := v.a, b := v.b, c := v.c, d := v.d, round := r.round + 1 }

/-- `k` rounds of the datapath. -/
def CoreRegs.run : Nat → CoreRegs → CoreRegs
  | 0, r => r
  | k + 1, r => (CoreRegs.run k r).tick

/-- `H <- Compress(H, blk)` on the datapath (R111, R115), for block number `q` of the command (R24). What the working
registers keep afterwards is notes/assumptions/6.md. -/
def absorbBlock (q : Nat) (blk : Vector Byte 64) (s : State) : State :=
  let r := CoreRegs.run 64 (CoreRegs.load s.H blk q)
  { s with H := addWork s.H r.work, core := r }

/-- The loop of R112 over `k` whole blocks of `src` from `pos` on, the first being block number `q`. -/
def absorbBlocks (src : Nat → Byte) (pos q : Nat) : Nat → State → State
  | 0, s => s
  | k + 1, s => absorbBlocks src (pos + 64) (q + 1) k (absorbBlock q (blockAt src pos) s)

/-- `CompressSpan(src, pos, len)` of R112: every whole block of the span is absorbed, in increasing order. -/
def compressSpan (src : Nat → Byte) (pos len : Nat) (s : State) : State :=
  absorbBlocks src pos 0 (len / 64) s

/-- The position `CompressSpan` returns: the first byte not absorbed (R112). -/
def spanEnd (pos len : Nat) : Nat := pos + 64 * (len / 64)

end Sys2Proof.Machine
end

