-- ==== Sys2Proof/Machine/Flags.lean ====
section
/-! DEFINITION. The status fields: error codes (spec/60_exceptions.md R200), the slot valid bits, and the STATUS and
BYTES words as a read returns them (spec/42_host_access.md R181 to R183, R187). -/

namespace Sys2Proof

/-- The value of STATUS.ERR for an outcome (R200). -/
def ErrCode.code : ErrCode → BitVec 4
  | .ok => 0
  | .useAfterFinish => 1
  | .saveFinished => 2
  | .badOp => 3
  | .badLen => 4
  | .badSlot => 5
  | .emptySlot => 6

end Sys2Proof

namespace Sys2Proof.Machine

/-- Slot `k`; an index past the last slot reads as an empty one (the commands check the index first, R73). -/
def slotOf (s : State) (k : Nat) : Slot := s.slots[k]?.getD Slot.empty

/-- `slot[k].valid`, and 0 for k ≥ NUM_SLOTS (R181). -/
def slotValid (s : State) (k : Nat) : Bool := (slotOf s k).valid

/-- STATUS.SLOTV, bit `k` for slot `k` (R33, R181). -/
def slotv (s : State) : BitVec 8 :=
  BitVec.ofBool (slotValid s 7) ++ BitVec.ofBool (slotValid s 6) ++ BitVec.ofBool (slotValid s 5) ++
  BitVec.ofBool (slotValid s 4) ++ BitVec.ofBool (slotValid s 3) ++ BitVec.ofBool (slotValid s 2) ++
  BitVec.ofBool (slotValid s 1) ++ BitVec.ofBool (slotValid s 0)

/-- The STATUS word of R181 from its fields; the reserved bits read 0 (R33). -/
def packStatus (slotv : BitVec 8) (bl : BitVec 6) (err : ErrCode) (ovr fin busy : Bool) : Word :=
  0#8 ++ slotv ++ 0#2 ++ bl ++ err.code ++ 0#1 ++ BitVec.ofBool ovr ++ BitVec.ofBool fin ++ BitVec.ofBool busy

/-- STATUS while BUSY=0: every field is hardwired to the state it reflects (R33, R181). -/
def statusExact (s : State) : Word := packStatus (slotv s) s.BL s.ERR s.OVR s.FIN s.BUSY

/-- STATUS while BUSY=1: BUSY, ERR and OVR exact, and the other fields drawn (R187, notes/assumptions/3.md). The SLOTV bits
of slots past the last read 0 then too (R33, spec/93_implementation_defined.md section 3). -/
def statusDrawn (s : State) : Word :=
  packStatus ((Config.freeSlotv s.draws).setWidth 8) (Config.freeBuflen s.draws) s.ERR s.OVR (Config.freeFinished s.draws) s.BUSY

/-- `BH[31:0]` (R182). -/
def bytesLo (s : State) : Word := s.BH.extractLsb' 0 32

/-- `BH[63:32]` (R183). -/
def bytesHi (s : State) : Word := s.BH.extractLsb' 32 32

/-- `ReadDIGEST(k)` of R184. -/
def digestWord (s : State) (k : Nat) : Word := if s.FIN && !s.BUSY then wordOf s.H k else 0

end Sys2Proof.Machine
end

