-- ==== Sys2Proof/Machine/Ops.lean ====
section
/-! DEFINITION. The shared operations: raising an error, accepting or discarding a command, ending a BUSY window,
returning a read, writing a slot, hardware reset, and taking the next event. -/

namespace Sys2Proof.Machine

/-- `raise Err(code)` (R12): the block's whole trap entry is this write of STATUS.ERR (R204, R205). There is no return
from it; the next accepted command overwrites the code (R207). -/
def raiseErr (code : ErrCode) (s : State) : State := { s with ERR := code }

/-- A CMD or MSG write while BUSY=1 is discarded and sets OVR (R206). -/
def discardWrite (s : State) : State := { s with OVR := true }

/-- The end of an accepted command that succeeded: ERR is OK and a BUSY window begins (R140, notes/assumptions/2.md). -/
def beginBusy (s : State) : State := { s with ERR := .ok, BUSY := true }

/-- `accept` of R140 once the command has run: `r` is the state its rule leaves, or the code it raised before changing
anything. -/
def accept (r : Except ErrCode State) (s : State) : State :=
  match r with
  | .error code => raiseErr code s
  | .ok t => beginBusy t

/-- `WriteCMD` of R180: a write to CMD is discarded while BUSY=1, and otherwise its command is accepted. -/
def issue (r : Except ErrCode State) (s : State) : State :=
  if s.BUSY then discardWrite s else accept r s

/-- The core's complete step (R240): it ends the BUSY window and changes nothing else. -/
def complete (s : State) : State := { s with BUSY := false }

/-- A read returns `v` to the host and has no side effect on the block (R188). -/
def returnRead (v : Word) (s : State) : State := { s with rdata := v }

/-- A read that is any value while BUSY=1 (R187): `exact` while BUSY=0, else the draw `drawn`, and each such read takes
a fresh draw. -/
def returnOrDraw (exact drawn : Word) (s : State) : State :=
  if s.BUSY then { s with rdata := drawn, draws := s.draws + 1 } else { s with rdata := exact }

/-- `slot[k] <- x` (R150, R155). -/
def setSlot (k : Nat) (x : Slot) (s : State) : State := { s with slots := s.slots.setIfInBounds k x }

/-- `MSG[k] <- v` (R186). -/
def setMsg (k : Nat) (v : Word) (s : State) : State := { s with MSG := s.MSG.setIfInBounds k v }

/-- Hardware reset (R230): every piece of the block's state takes its reset value, with `rst` high. The host's own
future, and the count of draws it has seen, are not the block's (notes/assumptions/5.md). -/
def hardwareReset (s : State) : State :=
  { State.reset with rst := true, draws := s.draws, pending := s.pending }

/-- The input `rst` takes a level: high resets the block, low releases it (R230). -/
def driveRst (level : Bool) (s : State) : State :=
  if level then hardwareReset s else { s with rst := false }

/-- Is a host word a read? A command word is a write of CMD (R79). -/
def isRead : HostWord → Bool
  | .cmd _ => false
  | .bus sel _ => !isWrite sel

/-- A transaction made while `rst` = 1 is ignored, and a read returns 0 (R230). -/
def heldInReset (w : HostWord) (s : State) : State := if isRead w then returnRead 0 s else s

/-- The next event and the state left once it is taken from the queue. -/
def fetch (s : State) : Option (Event × State) :=
  match s.pending with
  | [] => none
  | e :: rest => some (e, { s with pending := rest })

end Sys2Proof.Machine
end

