-- ==== Sys2Proof/Machine/Commands.lean ====
section
/-! DEFINITION. The streaming hasher's commands (spec/41_hasher_commands.md): what each command does to the state, and
the meaning of each CMD row of the opcode table, which is a host write of its word to CMD (R79). -/

namespace Sys2Proof.Machine

/-- R141. -/
def nopCmd (s : State) : Except ErrCode State := .ok s

/-- R142. -/
def resetCmd (s : State) : Except ErrCode State :=
  .ok { s with H := IV, BL := 0, BH := 0, FIN := false, OVR := false }

/-- Where an UPDATE stands: `t` bytes buffered and `p` bytes of the window absorbed. -/
structure UpdateCursor where
  t : Nat
  p : Nat
  deriving DecidableEq, Repr

/-- How many bytes top up a partial block of `t` bytes from `n` bytes (R143). -/
def topUpCount (n t : Nat) : Nat := min (64 - t) n

/-- The first part of R143: a partial block is topped up, and compressed if it fills. -/
def topUp (n t : Nat) (s : State) : State × UpdateCursor :=
  if t = 0 then (s, ⟨0, 0⟩)
  else
    let m := topUpCount n t
    let filled := { s with buf := fill s.buf t (t + m) fun j => msgByte s.MSG (j - t) }
    if t + m = 64 then (absorbBlock 0 (blockAt (byteOf filled.buf) 0) filled, ⟨0, m⟩)
    else (filled, ⟨t + m, m⟩)

/-- The second part of R143: a whole block left in the window is compressed straight from it. -/
def fullBlock (n : Nat) (x : State × UpdateCursor) : State × UpdateCursor :=
  (compressSpan (msgByte x.1.MSG) x.2.p (n - x.2.p) x.1, ⟨x.2.t, spanEnd x.2.p (n - x.2.p)⟩)

/-- The last part of R143: what is left goes into the buffer, and BL is where it ends. -/
def keepRest (n : Nat) (x : State × UpdateCursor) : State :=
  let t := x.2.t
  let p := x.2.p
  { x.1 with buf := fill x.1.buf t (t + (n - p)) fun j => msgByte x.1.MSG (p + (j - t)),
             BL := BitVec.ofNat 6 (t + (n - p)) }

/-- R143. -/
def updateCmd (n : BitVec 7) (s : State) : Except ErrCode State :=
  if s.FIN then .error .useAfterFinish
  else
    let counted := { s with BH := s.BH + n.zeroExtend 64 }
    .ok (keepRest n.toNat (fullBlock n.toNat (topUp n.toNat s.BL.toNat counted)))

/-- `P` of R145: the padded length. -/
def paddedLength (BH : BitVec 64) : Nat := if BH.toNat % 64 < 56 then 64 else 128

/-- `lo` of R145, `(BH * 8) mod 2^32`. -/
def bitLenLo (BH : BitVec 64) : Word := BH.extractLsb' 0 29 ++ 0#3

/-- `hi` of R145, `BH[60:29]`. -/
def bitLenHi (BH : BitVec 64) : Word := BH.extractLsb' 29 32

/-- Byte `i` (0 to 7) of the length field: `LEbytes(lo)` and then `LEbytes(hi)` (R145). -/
def lengthByte (BH : BitVec 64) (i : Nat) : Byte :=
  if i < 4 then laneOf (bitLenLo BH) i else laneOf (bitLenHi BH) (i - 4)

/-- The padding of R145 written after the buffered bytes, in its order: 0x80, zeros, the length field. -/
def padBuffer (BL : Nat) (BH : BitVec 64) (buf : Vector Byte 128) : Vector Byte 128 :=
  let P := paddedLength BH
  let marked := fill buf BL (BL + 1) fun _ => 0x80
  let zeroed := fill marked (BL + 1) (P - 8) fun _ => 0
  fill zeroed (P - 8) P fun j => lengthByte BH (j - (P - 8))

/-- R145. -/
def finishCmd (s : State) : Except ErrCode State :=
  if s.FIN then .ok s
  else
    let padded := { s with buf := padBuffer s.BL.toNat s.BH s.buf }
    .ok { compressSpan (byteOf padded.buf) 0 (paddedLength s.BH) padded with FIN := true }

/-- R147. -/
def cleanCmd (s : State) : Except ErrCode State :=
  .ok { s with buf := Vector.replicate 128 0,
               core := { s.core with a := 0, b := 0, c := 0, d := 0, W := Vector.replicate 16 0 },
               MSG := Vector.replicate 16 0,
               H := IV, BL := 0, BH := 0, FIN := false, OVR := false }

/-- The snapshot SAVE takes (R150): `buf[0..63]` is always copied. -/
def snapshot (s : State) : Slot := ⟨true, s.H, blockAt (byteOf s.buf) 0, s.BL, s.BH⟩

/-- R150. -/
def saveCmd (k : BitVec 4) (s : State) : Except ErrCode State :=
  if s.FIN then .error .saveFinished else .ok (setSlot k.toNat (snapshot s) s)

/-- R152. -/
def restoreCmd (k : BitVec 4) (s : State) : Except ErrCode State :=
  let x := slotOf s k.toNat
  if x.valid then
    .ok { s with H := x.H, buf := fill s.buf 0 64 (byteOf x.buf), BL := x.BL, BH := x.BH, FIN := false }
  else .error .emptySlot

/-- R155. -/
def dropCmd (k : BitVec 4) (s : State) : Except ErrCode State := .ok (setSlot k.toNat Slot.empty s)

/-- The rule a decoded command runs (R140). -/
def runCmd : Cmd → State → Except ErrCode State
  | .nop, s => nopCmd s
  | .reset, s => resetCmd s
  | .update n, s => updateCmd n s
  | .finish, s => finishCmd s
  | .clean, s => cleanCmd s
  | .save k, s => saveCmd k s
  | .restore k, s => restoreCmd k s
  | .drop k, s => dropCmd k s

/-- `r` if the slot index names a slot, and BAD_SLOT otherwise (R73). -/
def ifSlot (k : BitVec 4) (r : Except ErrCode State) : Except ErrCode State :=
  if k.toNat < Config.numSlots then r else .error .badSlot

/-- R141. -/
def execNop (s : State) : Host.Outcome State Fault Refusal := .next (issue (nopCmd s) s)

/-- R142. -/
def execReset (s : State) : Host.Outcome State Fault Refusal := .next (issue (resetCmd s) s)

/-- R143, with the LEN range of R72 checked before the state is read (R203). -/
def execUpdate (n : BitVec 7) (s : State) : Host.Outcome State Fault Refusal :=
  .next (issue (if n.toNat ≤ 64 then updateCmd n s else .error .badLen) s)

/-- R145. -/
def execFinish (s : State) : Host.Outcome State Fault Refusal := .next (issue (finishCmd s) s)

/-- R147. -/
def execClean (s : State) : Host.Outcome State Fault Refusal := .next (issue (cleanCmd s) s)

/-- R150. -/
def execSave (k : BitVec 4) (s : State) : Host.Outcome State Fault Refusal := .next (issue (ifSlot k (saveCmd k s)) s)

/-- R152. -/
def execRestore (k : BitVec 4) (s : State) : Host.Outcome State Fault Refusal :=
  .next (issue (ifSlot k (restoreCmd k s)) s)

/-- R155. -/
def execDrop (k : BitVec 4) (s : State) : Host.Outcome State Fault Refusal := .next (issue (ifSlot k (dropCmd k s)) s)

/-- R75: whatever its other bits, a word with a reserved opcode is rejected with BAD_OP (R203). -/
def execReservedOpcode (_c : Word) (s : State) : Host.Outcome State Fault Refusal := .next (issue (.error .badOp) s)

end Sys2Proof.Machine
end

