-- ==== Sys2Proof/Machine/Bus.lean ====
section
/-! DEFINITION. The host's bus transactions (spec/42_host_access.md): the meaning of each BUS row of the opcode
table. -/

namespace Sys2Proof.Machine

/-- `accept(c)` of R140: the word is decoded (R76) and its command run. -/
def acceptWord (c : Word) (s : State) : Except ErrCode State :=
  match decodeCmd Config.numSlots c with
  | .error code => .error code
  | .ok cmd => runCmd cmd s

/-- R180. -/
def execWrCmd (v : Word) (s : State) : Host.Outcome State Fault Refusal := .next (issue (acceptWord v s) s)

/-- R181, R187. -/
def execRdStatus (s : State) : Host.Outcome State Fault Refusal :=
  .next (returnOrDraw (statusExact s) (statusDrawn s) s)

/-- R182, R187. -/
def execRdBytesLo (s : State) : Host.Outcome State Fault Refusal :=
  .next (returnOrDraw (bytesLo s) (Config.freeBytesLo s.draws) s)

/-- R183, R187. -/
def execRdBytesHi (s : State) : Host.Outcome State Fault Refusal :=
  .next (returnOrDraw (bytesHi s) (Config.freeBytesHi s.draws) s)

/-- R184. -/
def execRdDigest (k : BitVec 2) (s : State) : Host.Outcome State Fault Refusal :=
  .next (returnRead (digestWord s k.toNat) s)

/-- R186. -/
def execWrMsg (k : BitVec 4) (v : Word) (s : State) : Host.Outcome State Fault Refusal :=
  .next (if s.BUSY then discardWrite s else setMsg k.toNat v s)

/-- R185: CMD is write-only and reads 0. -/
def execRdCmd (s : State) : Host.Outcome State Fault Refusal := .next (returnRead 0 s)

/-- R185: MSGk is write-only and reads 0. -/
def execRdMsg (_k : BitVec 4) (s : State) : Host.Outcome State Fault Refusal := .next (returnRead 0 s)

/-- R185: a reserved offset reads 0. -/
def execRdReserved08 (_k : BitVec 3) (s : State) : Host.Outcome State Fault Refusal := .next (returnRead 0 s)

/-- R185: a reserved offset reads 0. -/
def execRdReserved20 (_k : BitVec 5) (s : State) : Host.Outcome State Fault Refusal := .next (returnRead 0 s)

/-- R185: STATUS is read-only; the write is ignored and does not set OVR. -/
def execWrStatus (_v : Word) (s : State) : Host.Outcome State Fault Refusal := .next s

/-- R185: BYTES_LO and BYTES_HI are read-only. -/
def execWrBytes (_hi : BitVec 1) (_v : Word) (s : State) : Host.Outcome State Fault Refusal := .next s

/-- R185: DIGESTk is read-only. -/
def execWrDigest (_k : BitVec 2) (_v : Word) (s : State) : Host.Outcome State Fault Refusal := .next s

/-- R185: a write to a reserved offset is ignored. -/
def execWrReserved48 (_k : BitVec 3) (_v : Word) (s : State) : Host.Outcome State Fault Refusal := .next s

/-- R185: a write to a reserved offset is ignored. -/
def execWrReserved60 (_k : BitVec 5) (_v : Word) (s : State) : Host.Outcome State Fault Refusal := .next s

end Sys2Proof.Machine
end

