-- ==== Sys2Proof/Machine/Dispatch.lean ====
section
/-! DEFINITION. One arm per instruction: the meaning each constructor of `Instr` has. -/

namespace Sys2Proof.Machine

def exec (i : Instr) (s : State) : Host.Outcome State Fault Refusal :=
  match i with
  | .nop => Sys2Proof.Machine.execNop s
  | .reset => Sys2Proof.Machine.execReset s
  | .update n => Sys2Proof.Machine.execUpdate n s
  | .finish => Sys2Proof.Machine.execFinish s
  | .clean => Sys2Proof.Machine.execClean s
  | .save k => Sys2Proof.Machine.execSave k s
  | .restore k => Sys2Proof.Machine.execRestore k s
  | .drop k => Sys2Proof.Machine.execDrop k s
  | .reservedOpcode c => Sys2Proof.Machine.execReservedOpcode c s
  | .wrCmd v => Sys2Proof.Machine.execWrCmd v s
  | .rdStatus => Sys2Proof.Machine.execRdStatus s
  | .rdBytesLo => Sys2Proof.Machine.execRdBytesLo s
  | .rdBytesHi => Sys2Proof.Machine.execRdBytesHi s
  | .rdDigest k => Sys2Proof.Machine.execRdDigest k s
  | .wrMsg k v => Sys2Proof.Machine.execWrMsg k v s
  | .rdCmd => Sys2Proof.Machine.execRdCmd s
  | .rdMsg k => Sys2Proof.Machine.execRdMsg k s
  | .rdReserved08 k => Sys2Proof.Machine.execRdReserved08 k s
  | .rdReserved20 k => Sys2Proof.Machine.execRdReserved20 k s
  | .wrStatus v => Sys2Proof.Machine.execWrStatus v s
  | .wrBytes hi v => Sys2Proof.Machine.execWrBytes hi v s
  | .wrDigest k v => Sys2Proof.Machine.execWrDigest k v s
  | .wrReserved48 k v => Sys2Proof.Machine.execWrReserved48 k v s
  | .wrReserved60 k v => Sys2Proof.Machine.execWrReserved60 k v s

end Sys2Proof.Machine
end

