-- ==== Sys2Proof/Machine/Step.lean ====
section
/-! DEFINITION. One step of the machine: the next event is taken from the queue and has its effect. -/

namespace Sys2Proof.Machine

/-- A host transaction made while `rst` = 0: the decoded instruction runs, and a malformed command word, which stands
for none, is a CMD write rejected with its code (R75, R140). -/
def hostStep (w : HostWord) (s : State) : Host.Outcome State Fault Refusal :=
  match decode w with
  | .ok i => exec i s
  | .error code => .next (issue (.error code) s)

/-- One step (R5). With nothing queued only the core can move, so it takes its complete step
(notes/assumptions/2.md). -/
def step (s : State) : Host.Outcome State Fault Refusal :=
  match fetch s with
  | none => .next (complete s)
  | some (.complete, s) => .next (complete s)
  | some (.rst level, s) => .next (driveRst level s)
  | some (.host w, s) => if s.rst then .next (heldInReset w s) else hostStep w s

/-- `s` with the table-numbered word `w` as the host's next transaction, and `rst` low so that it reaches the block
(notes/assumptions/1.md). -/
def State.withFetchWord (s : State) (nbits w : Nat) : State :=
  { s with rst := false, pending := .host (tableHostWord nbits w) :: s.pending }

end Sys2Proof.Machine
end

