-- ==== Sys2Proof/Machine/Pseudo.lean ====
section
/-! DEFINITION. The host's spellings (spec/30_encoding.md R79 to R81): register names, the two transaction primitives,
and the pseudo-instructions as the sequences of transactions they expand to. The block sees only the transactions. -/

namespace Sys2Proof.Machine

/-- The register names of R33. -/
inductive RegName where
  | CMD | STATUS | BYTES_LO | BYTES_HI
  | DIGEST (k : BitVec 2)
  | MSG (k : BitVec 4)
  deriving DecidableEq, Repr

/-- The byte offset of a register in the window (R33). -/
def RegName.offset : RegName → BitVec 8
  | .CMD => 0x00
  | .STATUS => 0x04
  | .BYTES_LO => 0x08
  | .BYTES_HI => 0x0C
  | .DIGEST k => 0b0001#4 ++ k ++ 0#2
  | .MSG k => 0b01#2 ++ k ++ 0#2

/-- The word offset `off[7:2]` that names a word of the window; the interface has no `off[1:0]` (R51). -/
def wordOffset (off : BitVec 8) : BitVec 6 := off.extractLsb' 2 6

/-- `WR off, v` (R80), for every byte offset of the window, a reserved one included. -/
def wrOff (off : BitVec 8) (v : Word) : HostWord := .bus (1#1 ++ wordOffset off) v

/-- `RD off` (R80), for every byte offset of the window, a reserved one included. -/
def rdOff (off : BitVec 8) : HostWord := .bus (0#1 ++ wordOffset off) 0

/-- `WR NAME, v` (R80). -/
def wr (r : RegName) (v : Word) : HostWord := wrOff r.offset v

/-- `RD NAME` (R80). -/
def rd (r : RegName) : HostWord := rdOff r.offset

/-- A command mnemonic of R79: one write of its word to CMD. -/
def issueCmd (c : Cmd) : HostWord := .cmd (encodeCmd c)

/-- The text of a command (R79). -/
def commandText : Cmd → String
  | .nop => "NOP"
  | .reset => "RESET"
  | .update n => "UPDATE " ++ toString n.toNat
  | .finish => "FINISH"
  | .clean => "CLEAN"
  | .save k => "SAVE " ++ toString k.toNat
  | .restore k => "RESTORE " ++ toString k.toNat
  | .drop k => "DROP " ++ toString k.toNat

/-- `WAIT` in a run where BUSY reads 0 on the `polls`-th read of STATUS (R81). -/
def waitFor (polls : Nat) : List HostWord := List.replicate polls (rd .STATUS)

/-- Byte `j` of a chunk; a byte past its end may be any value (R81), and is the caller's `filler` there. -/
def chunkByte (filler : Nat → Byte) (b : List Byte) (j : Nat) : Byte := b.getD j (filler j)

/-- `LOADMSG b`, at most 64 bytes, for any `filler` of the last word (R81). -/
def loadMsg (filler : Nat → Byte) (b : List Byte) : List HostWord :=
  (List.range ((b.length + 3) / 4)).map fun k =>
    wr (.MSG (BitVec.ofNat 4 k)) (le32 (chunkByte filler b (4 * k)) (chunkByte filler b (4 * k + 1))
      (chunkByte filler b (4 * k + 2)) (chunkByte filler b (4 * k + 3)))

/-- `ABSORB` of a message already split into chunks of at most 64 bytes, in a run where the WAIT after chunk `n` reads
STATUS `polls n` times, for any `filler n` of the chunk's last word (R81). -/
def absorb (polls : Nat → Nat) (filler : Nat → Nat → Byte) (n : Nat) : List (List Byte) → List HostWord
  | [] => []
  | c :: cs =>
    loadMsg (filler n) c ++ [issueCmd (.update (BitVec.ofNat 7 c.length))] ++ waitFor (polls n) ++
      absorb polls filler (n + 1) cs

/-- `DIGEST`, with `polls` reads in its WAIT (R81). -/
def readDigest (polls : Nat) : List HostWord :=
  [issueCmd .finish] ++ waitFor polls ++ [rd (.DIGEST 0), rd (.DIGEST 1), rd (.DIGEST 2), rd (.DIGEST 3)]

/-- `HASH`, in a run where its WAITs, counted from 0, read STATUS `polls` times each (R81). -/
def hashMessage (polls : Nat → Nat) (filler : Nat → Nat → Byte) (chunks : List (List Byte)) : List HostWord :=
  [issueCmd .reset] ++ waitFor (polls 0) ++ absorb polls filler 1 chunks ++
    readDigest (polls (chunks.length + 1)) ++ [issueCmd .clean] ++ waitFor (polls (chunks.length + 2))

end Sys2Proof.Machine
end

