-- ==== Sys2Proof/Machine/Stream.lean ====
section
/-! DEFINITION. The hash of a byte stream as the spec defines it apart from the commands: the byte-serial UPDATE of
R144, the padded stream of R146, and what it means that the hasher has absorbed a message. -/

namespace Sys2Proof.Machine

/-- `AbsorbByte` of R144. -/
def absorbByte (x : Byte) (s : State) : State :=
  let buf := fill s.buf s.BL.toNat (s.BL.toNat + 1) fun _ => x
  if s.BL.toNat + 1 = 64 then { s with buf := buf, BL := 0, H := compress s.H (blockAt (byteOf buf) 0) }
  else { s with buf := buf, BL := s.BL + 1 }

/-- `for p in 0 .. n-1: AbsorbByte(MsgByte(p))` (R144). -/
def absorbWindow : Nat → State → State
  | 0, s => s
  | p + 1, s => absorbByte (msgByte s.MSG p) (absorbWindow p s)

/-- The byte-serial definition of UPDATE (R144). -/
def updateSerial (n : Nat) (s : State) : State := absorbWindow n { s with BH := s.BH + BitVec.ofNat 64 n }

/-- The state after `k` whole blocks of a byte source, from the state `h` (R112). -/
def hashBlocks (src : Nat → Byte) (h : Vector Word 4) : Nat → Vector Word 4
  | 0 => h
  | k + 1 => compress (hashBlocks src h k) (blockAt src (64 * k))

/-- A message as a byte source. -/
def listByte (m : List Byte) (j : Nat) : Byte := m.getD j 0

/-- `z = (55 − N) mod 64` of R146. -/
def zeroCount (N : Nat) : Nat := (119 - N % 64) % 64

/-- What R146 appends to a message of `N` bytes. -/
def padding (N : Nat) : List Byte :=
  0x80 :: (List.replicate (zeroCount N) 0 ++ leBytes (BitVec.ofNat 32 (8 * N)) ++ leBytes (BitVec.ofNat 32 (N / 2 ^ 29)))

/-- The padded stream of R146. -/
def paddedStream (m : List Byte) : List Byte := m ++ padding m.length

/-- The hash state after every block of the padded stream (R146): the four digest words of the message. -/
def md5 (m : List Byte) : Vector Word 4 :=
  hashBlocks (listByte (paddedStream m)) IV ((paddedStream m).length / 64)

/-- The digest byte sequence of R54. -/
def digestBytes (h : Vector Word 4) : List Byte :=
  leBytes (wordOf h 0) ++ leBytes (wordOf h 1) ++ leBytes (wordOf h 2) ++ leBytes (wordOf h 3)

/-- The bytes `MsgByte(0 .. n-1)` (R10). -/
def windowBytes (MSG : Vector Word 16) (n : Nat) : List Byte := (List.range n).map (msgByte MSG)

/-- The hasher has absorbed exactly the message `m` since its initial state (R144): `H` holds its whole blocks, the
buffer its last `m.length mod 64` bytes, and `BH` its length modulo 2^64 (R28). -/
def AbsorbedStream (m : List Byte) (s : State) : Prop :=
  s.H = hashBlocks (listByte m) IV (m.length / 64) ∧
  s.BL.toNat = m.length % 64 ∧
  s.BH = BitVec.ofNat 64 m.length ∧
  ∀ j, j < m.length % 64 → byteOf s.buf j = listByte m (64 * (m.length / 64) + j)

end Sys2Proof.Machine
end

