-- ==== Sys2Proof/Safety.lean ====
section
/-! DEFINITION. The terms claims use: a safe state, the machine's invariant, which part of the state can ever be
observed, and the must-be-zero bits of a command word. -/

namespace Sys2Proof.Machine

/-- No CMD or MSG write has been discarded: the premise R206 gives a claim about a program. -/
abbrev Safe (s : State) : Prop := s.OVR = false

/-- A cursor agrees with a byte count (R31). -/
abbrev CursorOk (BL : BitVec 6) (BH : BitVec 64) : Prop := BL.toNat = BH.toNat % 64

/-- The block's state is the hardware-reset state, with `rst` high (R230). -/
abbrev HeldAtReset (s : State) : Prop := s = { State.reset with rst := true, draws := s.draws, pending := s.pending }

/-- What holds of the machine between any two steps. -/
structure BlockInv (s : State) : Prop where
  /-- R31. -/
  cursor : CursorOk s.BL s.BH
  /-- R31, for the pair a slot holds. -/
  slotCursor : ∀ k, (slotOf s k).valid = true → CursorOk (slotOf s k).BL (slotOf s k).BH
  /-- A slot that is not valid holds zeros: its reset value (R27), or what DROP left (R155). -/
  slotEmpty : ∀ k, (slotOf s k).valid = false → slotOf s k = Slot.empty
  /-- While BUSY=1, ERR is 0, the code of the running command (R187). -/
  busyOk : s.BUSY = true → s.ERR = .ok
  /-- While `rst` stays high the block keeps its reset values (R230). -/
  held : s.rst = true → HeldAtReset s

/-- Two slots agree on all that a later command can bring to light (R35). -/
def SameSlot (x y : Slot) : Prop :=
  x.valid = y.valid ∧
  (x.valid = true → x.H = y.H ∧ x.BL = y.BL ∧ x.BH = y.BH ∧ ∀ j, j < x.BL.toNat → byteOf x.buf j = byteOf y.buf j)

/-- Two states differ at most in what R35 says affects no observable value: the core's working state, the buffer bytes
from BL on, the fields of slots that are not valid and the slots' buffer bytes from their BL on. -/
structure SameVisible (s t : State) : Prop where
  H : s.H = t.H
  BL : s.BL = t.BL
  BH : s.BH = t.BH
  FIN : s.FIN = t.FIN
  MSG : s.MSG = t.MSG
  BUSY : s.BUSY = t.BUSY
  OVR : s.OVR = t.OVR
  ERR : s.ERR = t.ERR
  rst : s.rst = t.rst
  rdata : s.rdata = t.rdata
  draws : s.draws = t.draws
  pending : s.pending = t.pending
  buf : ∀ j, j < s.BL.toNat → byteOf s.buf j = byteOf t.buf j
  slots : ∀ k, SameSlot (slotOf s k) (slotOf t k)

/-- The mask of checked bits of R74, by opcode. -/
def checkedBits (op : Nat) : Word :=
  if op = 2 then 0xFFFF80FF else if op = 5 ∨ op = 6 ∨ op = 7 then 0xFFF0FFFF else 0xFFFFFFFF

/-- A nonzero bit in the checked set of R74 lies outside the opcode's fields. -/
def ReservedBitSet (c : Word) : Prop :=
  c &&& checkedBits (c.toNat % 16) ≠ BitVec.ofNat 32 (c.toNat % 16)

/-- The command word of a host event, in either format (R79, R80). -/
def cmdWrite? : HostWord → Option Word
  | .cmd c => some c
  | .bus sel v => if sel = 0x40#7 then some v else none

/-- The event is a write to CMD or to MSGk. -/
def isCmdOrMsgWrite (w : HostWord) : Bool :=
  match w with
  | .cmd _ => true
  | .bus sel _ => sel == 0x40#7 || (0x50 ≤ sel.toNat && sel.toNat ≤ 0x5F)

end Sys2Proof.Machine
end

