-- ==== Sys2Proof/Certificates/Slice0/Obligations.lean ====
section
/-! DEFINITION. The statements about the model, for the provers. -/

open Sys2Proof Sys2Proof.Machine

/-! ### Encoding -/

/-- Every well-formed instruction, with every operand value its fields admit, is what the decoder reads from its host
word. -/
def Obligations.DecodeInvertsEncode : Prop :=
  ∀ i : Instr, i.wellFormed = true → decode (encode i) = .ok i

/-- Every host word the decoder accepts stands for one instruction: a well-formed one, which encodes to that word
(with the unused write-data lines of a read at 0). -/
def Obligations.EncodeInvertsDecode : Prop :=
  ∀ (w : HostWord) (i : Instr), decode w = .ok i → i.wellFormed = true ∧ encode i = w.canonical

/-- R76: the decoder is total, and its checks come in the order of the pseudocode, for every NUM_SLOTS. -/
def Obligations.CommandDecoderFollowsPseudocode : Prop :=
  ∀ (numSlots : Nat) (c : Word),
    let op := c.toNat % 16
    let n := c.toNat / 2 ^ 8 % 128
    let k := c.toNat / 2 ^ 16 % 16
    decodeCmd numSlots c =
      if 8 ≤ op then .error .badOp
      else if op = 0 ∨ op = 1 ∨ op = 3 ∨ op = 4 then
        if c.toNat / 2 ^ 4 ≠ 0 then .error .badOp
        else .ok (if op = 0 then .nop else if op = 1 then .reset else if op = 3 then .finish else .clean)
      else if op = 2 then
        if c.toNat / 2 ^ 15 ≠ 0 ∨ c.toNat / 2 ^ 4 % 16 ≠ 0 then .error .badOp
        else if 64 < n then .error .badLen
        else .ok (.update (BitVec.ofNat 7 n))
      else
        if c.toNat / 2 ^ 20 ≠ 0 ∨ c.toNat / 2 ^ 4 % 2 ^ 12 ≠ 0 then .error .badOp
        else if numSlots ≤ k then .error .badSlot
        else .ok (if op = 5 then .save (BitVec.ofNat 4 k) else if op = 6 then .restore (BitVec.ofNat 4 k)
          else .drop (BitVec.ofNat 4 k))

/-- R77: the transaction of each of the 128 selectors, each of which exactly one row of the opcode table covers. -/
def Obligations.SelectorTableCoversEverySelector : Prop :=
  ∀ (sel : BitVec 7) (v : Word),
    let x := sel.toNat
    (decode (.bus sel v) = .ok (
      if x = 0x40 then .wrCmd v
      else if x = 0x01 then .rdStatus
      else if x = 0x02 then .rdBytesLo
      else if x = 0x03 then .rdBytesHi
      else if 0x04 ≤ x ∧ x ≤ 0x07 then .rdDigest (BitVec.ofNat 2 (x - 4))
      else if 0x50 ≤ x ∧ x ≤ 0x5F then .wrMsg (BitVec.ofNat 4 (x - 0x50)) v
      else if x = 0x00 then .rdCmd
      else if 0x10 ≤ x ∧ x ≤ 0x1F then .rdMsg (BitVec.ofNat 4 (x - 0x10))
      else if 0x08 ≤ x ∧ x ≤ 0x0F then .rdReserved08 (BitVec.ofNat 3 (x - 0x08))
      else if 0x20 ≤ x ∧ x ≤ 0x3F then .rdReserved20 (BitVec.ofNat 5 (x - 0x20))
      else if x = 0x41 then .wrStatus v
      else if x = 0x42 ∨ x = 0x43 then .wrBytes (BitVec.ofNat 1 (x - 0x42)) v
      else if 0x44 ≤ x ∧ x ≤ 0x47 then .wrDigest (BitVec.ofNat 2 (x - 0x44)) v
      else if 0x48 ≤ x ∧ x ≤ 0x4F then .wrReserved48 (BitVec.ofNat 3 (x - 0x48)) v
      else .wrReserved60 (BitVec.ofNat 5 (x - 0x60)) v)) ∧
    (opcodeTable.filter fun r => r.covers (.bus sel v)).length = 1

/-- R82: every worked command word, as the block's decoder reads it with the spec's NUM_SLOTS. -/
def Obligations.WorkedCommandWordsDecode : Prop :=
  decodeCmd 2 0x00000000 = .ok .nop ∧
  decodeCmd 2 0x00000001 = .ok .reset ∧
  decodeCmd 2 0x00000002 = .ok (.update 0) ∧
  decodeCmd 2 0x00003702 = .ok (.update 55) ∧
  decodeCmd 2 0x00004002 = .ok (.update 64) ∧
  decodeCmd 2 0x00004102 = .error .badLen ∧
  decodeCmd 2 0x00000003 = .ok .finish ∧
  decodeCmd 2 0x00000004 = .ok .clean ∧
  decodeCmd 2 0x00000005 = .ok (.save 0) ∧
  decodeCmd 2 0x00010006 = .ok (.restore 1) ∧
  decodeCmd 2 0x00010007 = .ok (.drop 1) ∧
  decodeCmd 2 0x00020005 = .error .badSlot ∧
  decodeCmd 2 0x00000008 = .error .badOp ∧
  decodeCmd 2 0x00000013 = .error .badOp ∧
  decodeCmd 2 0x80000002 = .error .badOp

/-- R70, R77: a selector of each of the 15 bus rows, bit by bit, and what it decodes to. -/
def Obligations.WorkedBusWordsDecode : Prop :=
  decode (.bus 0b1_000000#7 7) = .ok (.wrCmd 7) ∧
  decode (.bus 0b0_000001#7 7) = .ok .rdStatus ∧
  decode (.bus 0b0_000010#7 7) = .ok .rdBytesLo ∧
  decode (.bus 0b0_000011#7 7) = .ok .rdBytesHi ∧
  decode (.bus 0b0_000110#7 7) = .ok (.rdDigest 2) ∧
  decode (.bus 0b1_011111#7 7) = .ok (.wrMsg 15 7) ∧
  decode (.bus 0b0_000000#7 7) = .ok .rdCmd ∧
  decode (.bus 0b0_010001#7 7) = .ok (.rdMsg 1) ∧
  decode (.bus 0b0_001101#7 7) = .ok (.rdReserved08 5) ∧
  decode (.bus 0b0_110010#7 7) = .ok (.rdReserved20 18) ∧
  decode (.bus 0b1_000001#7 7) = .ok (.wrStatus 7) ∧
  decode (.bus 0b1_000011#7 7) = .ok (.wrBytes 1 7) ∧
  decode (.bus 0b1_000111#7 7) = .ok (.wrDigest 3 7) ∧
  decode (.bus 0b1_001110#7 7) = .ok (.wrReserved48 6 7) ∧
  decode (.bus 0b1_111111#7 7) = .ok (.wrReserved60 31 7)

/-- R200: the numbers of the outcome codes, as STATUS.ERR shows them. -/
def Obligations.OutcomeCodesHaveTheirNumbers : Prop :=
  [ErrCode.ok, .useAfterFinish, .saveFinished, .badOp, .badLen, .badSlot, .emptySlot].map ErrCode.code =
    [0, 1, 2, 3, 4, 5, 6]

/-- R79, R80: a command mnemonic is the same as the write of its word to CMD: in every state, and for every operand,
legal or not, the two have the same outcome. -/
def Obligations.CommandIsWriteOfItsWord : Prop :=
  ∀ (i : Instr) (c : Word) (s : State), i.wellFormed = true → i.cmdWord? = some c →
    encode i = .cmd c ∧ exec i s = exec (.wrCmd c) s

/-! ### The step -/

/-- A host transaction that the decoder reads as `i`, made while `rst` = 0, runs `i` on the state left once the
transaction is taken from the queue, and nothing else happens in that step. -/
def Obligations.StepRunsDecodedInstruction : Prop :=
  ∀ (s : State) (w : HostWord) (rest : List Event) (i : Instr),
    s.pending = .host w :: rest → s.rst = false → decode w = .ok i →
    step s = exec i { s with pending := rest }

/-- The table-numbered word placed as the next transaction is the instruction the next step runs. Where it is placed (at
the head of the queue, with `rst` taken low, notes/assumptions/1.md) and that its number of bits tells a selector from a
command word (notes/assumptions/14.md) are the model's choices: no rule of the spec says either. -/
def Obligations.PlacedTableWordRuns : Prop :=
  ∀ (s : State) (nbits w : Nat) (i : Instr), decodeTableWord nbits w = some i →
    step (s.withFetchWord nbits w) = exec i { s with rst := false }

/-- R75: a command word that the decoder reads as no instruction breaks R74, and issuing it is a CMD write rejected
with BAD_OP, or discarded while BUSY=1. -/
def Obligations.MalformedCommandWordIsRejected : Prop :=
  ∀ (s : State) (c : Word) (rest : List Event) (e : ErrCode),
    s.pending = .host (.cmd c) :: rest → s.rst = false → decode (.cmd c) = .error e →
    ReservedBitSet c ∧
    step s = .next (if s.BUSY = true then { s with pending := rest, OVR := true }
      else { s with pending := rest, ERR := .badOp })

/-- No step stops: the block has no trap (R205) and every accepted command terminates (R158). That a write discarded
while BUSY=1 is a next state too, with OVR set, is notes/assumptions/16.md (DEDUCED): R206 has a claim about a program
treat OVR=1 as a host fault, which is the premise `Safe`. -/
def Obligations.EveryStepContinues : Prop :=
  ∀ s : State, ∃ t, step s = .next t

/-- R240: the complete step, taken as an event or because nothing else is left to happen, sets BUSY to 0 and changes
nothing else. That it is taken when the queue is empty is the model's form of fairness (notes/assumptions/2.md). -/
def Obligations.CompleteStepOnlyClearsBusy : Prop :=
  ∀ (s : State) (rest : List Event),
    (s.pending = .complete :: rest → step s = .next { s with BUSY := false, pending := rest }) ∧
    (s.pending = [] → step s = .next { s with BUSY := false })

/-- Every BUSY window ends once the queued events are over: from every state, so many steps empty the queue and leave
BUSY=0. It rests on the model's form of fairness (notes/assumptions/2.md). -/
def Obligations.BusyWindowEndsWithTheQueue : Prop :=
  ∀ s : State, ∃ t : State,
    Host.Core.run Sys2Proof.core (s.pending.length + 1) s = .next t ∧ t.pending = [] ∧ t.BUSY = false

/-- R36, R230, R231: raising `rst` in any state, a BUSY window included, gives every piece of the block's state its
reset value, after which the hasher has absorbed the empty message. The sequencer's counters, for which the spec gives
none, are left out (notes/assumptions/7.md). -/
def Obligations.HardwareResetLoadsResetValues : Prop :=
  ∀ (s : State) (rest : List Event), s.pending = .rst true :: rest →
    ∃ t, step s = .next t ∧
      t.H = #v[0x67452301, 0xefcdab89, 0x98badcfe, 0x10325476] ∧ t.BL = 0 ∧ t.BH = 0 ∧ t.FIN = false ∧
      (∀ j, j < 128 → byteOf t.buf j = 0) ∧
      (∀ j, j < 16 → wordOf t.core.W j = 0 ∧ wordOf t.MSG j = 0) ∧
      t.core.a = 0 ∧ t.core.b = 0 ∧ t.core.c = 0 ∧ t.core.d = 0 ∧
      (∀ k, k < Config.numSlots → (slotOf t k).valid = false ∧ (slotOf t k).BL = 0 ∧ (slotOf t k).BH = 0 ∧
        (∀ j, j < 4 → wordOf (slotOf t k).H j = 0) ∧ (∀ j, j < 64 → byteOf (slotOf t k).buf j = 0)) ∧
      t.BUSY = false ∧ t.OVR = false ∧ t.ERR = .ok ∧
      t.rst = true ∧ t.pending = rest ∧ statusExact t = 0 ∧ bytesLo t = 0 ∧ bytesHi t = 0 ∧
      (∀ k, digestWord t k = 0) ∧ AbsorbedStream [] t

/-- R230: while `rst` = 1 a transaction of any form is ignored, a read returning 0, and the block keeps its state until
`rst` falls. -/
def Obligations.ResetInputHoldsTheBlock : Prop :=
  ∀ (s : State) (rest : List Event),
    (∀ w, s.rst = true → s.pending = .host w :: rest →
      step s = .next (if isRead w = true then { s with pending := rest, rdata := 0 } else { s with pending := rest })) ∧
    (s.pending = .rst false :: rest → step s = .next { s with pending := rest, rst := false })

/-! ### Whole-machine rules -/

/-- The invariant holds right after reset (R31, R36). -/
def Obligations.InvariantHoldsAtReset : Prop := BlockInv State.reset

/-- Every step keeps the invariant: BL = BH mod 64 in the hasher and in every valid slot (R31), invalid slots are zero,
ERR is 0 while BUSY=1 (R187), and the block keeps its reset values while `rst` is high (R230). Of what it keeps then, the
sequencer's counters at 0 (notes/assumptions/7.md) and the last read value at 0 (notes/assumptions/4.md, 5.md) are the
model's choices, which R230 does not give. -/
def Obligations.EveryStepKeepsTheInvariant : Prop :=
  ∀ s t : State, BlockInv s → step s = .next t → BlockInv t

/-- R35: what no interface can read never comes to light: two states that differ in nothing else step to two states
that differ in nothing else, the value of every read included. That a read of a field R187 calls any value returns the
same in both is the model's choice (notes/assumptions/3.md): both draw at one count, where hardware may draw
differently. -/
def Obligations.HiddenStateIsNeverObserved : Prop :=
  ∀ s t s' t' : State, SameVisible s t → step s = .next s' → step t = .next t' → SameVisible s' t'

/-- R203: what a write of any word to CMD reports, in every state: the first cause in the order of R203 wins, and with
no cause the command succeeds. Every rejection leaves the rest of the state as it was. -/
def Obligations.FirstCauseInPriorityOrderWins : Prop :=
  ∀ (c : Word) (s : State),
    let op := c.toNat % 16
    let n := c.toNat / 2 ^ 8 % 128
    let k := c.toNat / 2 ^ 16 % 16
    if s.BUSY = true then exec (.wrCmd c) s = .next { s with OVR := true }
    else if 8 ≤ op then exec (.wrCmd c) s = .next { s with ERR := .badOp }
    else
      (ReservedBitSet c → exec (.wrCmd c) s = .next { s with ERR := .badOp }) ∧
      (¬ ReservedBitSet c →
        if op = 2 ∧ 64 < n then exec (.wrCmd c) s = .next { s with ERR := .badLen }
        else if 5 ≤ op ∧ Config.numSlots ≤ k then exec (.wrCmd c) s = .next { s with ERR := .badSlot }
        else if op = 2 ∧ s.FIN = true then exec (.wrCmd c) s = .next { s with ERR := .useAfterFinish }
        else if op = 5 ∧ s.FIN = true then exec (.wrCmd c) s = .next { s with ERR := .saveFinished }
        else if op = 6 ∧ (slotOf s k).valid = false then exec (.wrCmd c) s = .next { s with ERR := .emptySlot }
        else ∃ t, exec (.wrCmd c) s = .next t ∧ t.ERR = .ok)

/-- R204: a command, in either spelling, that is issued while BUSY=0 and ends with a nonzero code changes nothing but
ERR, BUSY included. The code stays until the next accepted command: while BUSY=1 no instruction writes ERR, and no
instruction but a command ever does. -/
def Obligations.RejectedCommandChangesOnlyErr : Prop :=
  ∀ (i : Instr) (s t : State), exec i s = .next t →
    (i.cmdWord?.isSome = true ∨ (∃ v, i = .wrCmd v) → s.BUSY = false → t.ERR ≠ .ok → t = { s with ERR := t.ERR }) ∧
    (s.BUSY = true → t.ERR = s.ERR) ∧
    (i.cmdWord? = none → (∀ v, i ≠ .wrCmd v) → t.ERR = s.ERR)

/-- R180, R186, R206: while BUSY=1, a command in either spelling and a write to MSGk set OVR and change nothing
else. -/
def Obligations.WritesWhileBusyOnlySetOvr : Prop :=
  ∀ (s : State), s.BUSY = true →
    (∀ (i : Instr) (c : Word), i.cmdWord? = some c → exec i s = .next { s with OVR := true }) ∧
    (∀ v, exec (.wrCmd v) s = .next { s with OVR := true }) ∧
    (∀ k v, exec (.wrMsg k v) s = .next { s with OVR := true })

/-- R206: OVR rises in a step exactly when it was 0 and a CMD or MSG write arrives while BUSY=1, and it is sticky: only
hardware reset and an accepted RESET or CLEAN clear it. -/
def Obligations.OvrIsStickyAndSetByDiscards : Prop :=
  ∀ s t : State, step s = .next t →
    (t.OVR = true ∧ s.OVR = false ↔
      s.OVR = false ∧ s.rst = false ∧ s.BUSY = true ∧
        ∃ w rest, s.pending = .host w :: rest ∧ isCmdOrMsgWrite w = true) ∧
    (s.OVR = true → t.OVR = false →
      (∃ rest, s.pending = .rst true :: rest) ∨
      (s.rst = false ∧ s.BUSY = false ∧ ∃ w rest c, s.pending = .host w :: rest ∧ cmdWrite? w = some c ∧
        (c = 0x00000001 ∨ c = 0x00000004)))

/-- R210, R29: the lifecycle flag rises only by an accepted FINISH, and falls only by hardware reset or an accepted
RESET, CLEAN or RESTORE. -/
def Obligations.FinishedFlagHasOnlyItsWriters : Prop :=
  ∀ s t : State, step s = .next t → s.FIN ≠ t.FIN →
    (t.FIN = false ∧ ∃ rest, s.pending = .rst true :: rest) ∨
    (s.rst = false ∧ s.BUSY = false ∧ ∃ w rest c, s.pending = .host w :: rest ∧ cmdWrite? w = some c ∧
      (if t.FIN = true then c = 0x00000003
       else c = 0x00000001 ∨ c = 0x00000004 ∨ ∃ k : BitVec 4, c = encodeCmd (.restore k)))

/-- R20: a step changes H only by hardware reset or by an accepted RESET, UPDATE, FINISH, CLEAN or RESTORE. -/
def Obligations.HashStateHasOnlyItsWriters : Prop :=
  ∀ s t : State, step s = .next t → s.H ≠ t.H →
    (∃ rest, s.pending = .rst true :: rest) ∨
    (s.rst = false ∧ s.BUSY = false ∧ t.ERR = .ok ∧ ∃ w rest c, s.pending = .host w :: rest ∧ cmdWrite? w = some c ∧
      (c = 0x00000001 ∨ c = 0x00000003 ∨ c = 0x00000004 ∨ (∃ n : BitVec 7, c = encodeCmd (.update n)) ∨
        ∃ k : BitVec 4, c = encodeCmd (.restore k)))

/-- R148: with FIN=1 an accepted RESET, CLEAN or RESTORE loses the digest, so that every DIGEST register then reads 0,
and every other instruction, a rejected one included, leaves H and FIN as they were. -/
def Obligations.DigestLastsUntilResetCleanOrRestore : Prop :=
  ∀ (i : Instr) (s t : State), s.FIN = true → s.BUSY = false → exec i s = .next t →
    (i = .reset ∨ i = .clean ∨ (∃ k, i = .restore k ∧ t.ERR = .ok) ∨
        (∃ c, i = .wrCmd c ∧ t.ERR = .ok ∧ (c = 0x1 ∨ c = 0x4 ∨ ∃ k : BitVec 4, c = encodeCmd (.restore k))) →
      t.FIN = false ∧ ∀ k, digestWord (complete t) k = 0) ∧
    (i ≠ .reset → i ≠ .clean → (∀ k, i = .restore k → t.ERR ≠ .ok) →
        (∀ c, i = .wrCmd c → c ≠ 0x1 ∧ c ≠ 0x4 ∧ ((∃ k : BitVec 4, c = encodeCmd (.restore k)) → t.ERR ≠ .ok)) →
      t.H = s.H ∧ t.FIN = true)

/-- R27, R32: a step changes a slot only by hardware reset or by an accepted SAVE or DROP that names it, and a window word
only by hardware reset, a write to that MSGk made while BUSY=0, or an accepted CLEAN. -/
def Obligations.SlotsAndWindowHaveOnlyTheirWriters : Prop :=
  ∀ s t : State, step s = .next t →
    (∀ k, slotOf t k ≠ slotOf s k →
      (∃ rest, s.pending = .rst true :: rest) ∨
      (s.rst = false ∧ s.BUSY = false ∧ t.ERR = .ok ∧ ∃ w rest, s.pending = .host w :: rest ∧
        ∃ x : BitVec 4, k = x.toNat ∧
          (cmdWrite? w = some (encodeCmd (.save x)) ∨ cmdWrite? w = some (encodeCmd (.drop x))))) ∧
    (∀ j, wordOf t.MSG j ≠ wordOf s.MSG j →
      (∃ rest, s.pending = .rst true :: rest) ∨
      (s.rst = false ∧ s.BUSY = false ∧ ∃ w rest, s.pending = .host w :: rest ∧
        ((∃ sel v, w = .bus sel v ∧ sel.toNat = 0x50 + j ∧ wordOf t.MSG j = v) ∨
          (cmdWrite? w = some 0x00000004 ∧ t.ERR = .ok ∧ wordOf t.MSG j = 0))))

/-- R188: no read of any register has a side effect: BUSY or not, it only returns its value, and OVR keeps its value.
(`draws` counts the free values drawn and is no part of the block.) -/
def Obligations.ReadsHaveNoSideEffect : Prop :=
  ∀ (i : Instr) (s t : State), isRead (encode i) = true → exec i s = .next t →
    t = { s with rdata := t.rdata, draws := t.draws } ∧ t.OVR = s.OVR

/-! ### The compression core -/

/-- R114: the round functions fF and fG have bit-select forms. -/
def Obligations.RoundFunctionsAreBitSelects : Prop :=
  ∀ b c d : Word, fF b c d = (b &&& c) ||| (~~~b &&& d) ∧ fG b c d = (b &&& d) ||| (c &&& ~~~d)

/-- R111, R115: the sequenced datapath, which counts its own 64 rounds, writes `Compress(H, blk)` to H and, but for the
core's working registers, changes nothing else. -/
def Obligations.DatapathComputesCompress : Prop :=
  ∀ (q : Nat) (blk : Vector Byte 64) (s : State),
    absorbBlock q blk s = { s with H := compress s.H blk, core := (absorbBlock q blk s).core }

/-- R112: a span is absorbed block by block in increasing order, all `k` of its whole blocks and no more, and the position
returned is the first byte not absorbed, `64 * k` past the start. -/
def Obligations.SpanAbsorbsItsWholeBlocksInOrder : Prop :=
  ∀ (src : Nat → Byte) (pos len : Nat) (s : State), ∃ k : Nat,
    64 * k ≤ len ∧ len < 64 * k + 64 ∧
    compressSpan src pos len s =
      { s with H := hashBlocks (fun j => src (pos + j)) s.H k, core := (compressSpan src pos len s).core } ∧
    spanEnd pos len = pos + 64 * k

/-! ### Commands
A command that succeeds leaves BUSY=1, the start of its BUSY window (R140); the window may be of length zero, in that
the complete step may come before anything else (notes/assumptions/2.md). -/

/-- R141, R140: NOP sets ERR to OK and begins a BUSY window, and does nothing else, whatever FIN and OVR are. That BUSY
rises even for a command that does nothing is notes/assumptions/18.md, and that it is seen as 1 before the complete step
comes is notes/assumptions/2.md (both DEDUCED). -/
def Obligations.NopSetsErrToOkAndBeginsBusy : Prop :=
  ∀ s : State, s.BUSY = false → exec .nop s = .next { s with ERR := .ok, BUSY := true }

/-- R142: RESET loads the initial hash state, clears BL, BH, FIN and OVR, and leaves everything else, in every state;
the hasher has then absorbed the empty message. -/
def Obligations.ResetReinitialisesTheHasher : Prop :=
  ∀ s : State, s.BUSY = false →
    ∃ t, exec .reset s = .next t ∧
      t = { s with H := #v[0x67452301, 0xefcdab89, 0x98badcfe, 0x10325476], BL := 0, BH := 0, FIN := false,
                   OVR := false, ERR := .ok, BUSY := true } ∧
      AbsorbedStream [] t

/-- R147: CLEAN zeroes the buffer, the schedule, the working variables and the window, then reinitialises the hasher;
the slots are not touched. -/
def Obligations.CleanWipesAndReinitialises : Prop :=
  ∀ s : State, s.BUSY = false →
    ∃ t, exec .clean s = .next t ∧
      (∀ j, j < 128 → byteOf t.buf j = 0) ∧
      (∀ j, j < 16 → wordOf t.core.W j = 0 ∧ wordOf t.MSG j = 0) ∧
      t.core.a = 0 ∧ t.core.b = 0 ∧ t.core.c = 0 ∧ t.core.d = 0 ∧
      AbsorbedStream [] t ∧
      t = { s with H := #v[0x67452301, 0xefcdab89, 0x98badcfe, 0x10325476], BL := 0, BH := 0, FIN := false,
                   OVR := false, ERR := .ok, BUSY := true, buf := t.buf, core := t.core, MSG := t.MSG }

/-- R143: what UPDATE n leaves, for every n and every fill of the buffer. With `BL + n < 64` the n window bytes follow
the buffered ones. Otherwise one block is compressed, the buffered bytes and the first window bytes in order, and the
window's remaining bytes start the buffer, BL holding their number; with BL = 0 and n = 64 the block comes straight
from the window and the buffer keeps its bytes. BH counts n bytes modulo 2^64. Nothing else changes but the core's
working registers, and those only by a compression. -/
def Obligations.UpdateAbsorbsTheWindow : Prop :=
  ∀ (n : BitVec 7) (s : State), s.BUSY = false → s.FIN = false → n.toNat ≤ 64 →
    let used := 64 - s.BL.toNat
    ∃ t, exec (.update n) s = .next t ∧
      t.BH.toNat = (s.BH.toNat + n.toNat) % 2 ^ 64 ∧
      t.BL.toNat = (s.BL.toNat + n.toNat) % 64 ∧
      t = { s with H := t.H, core := t.core, buf := t.buf, BL := t.BL, BH := t.BH, ERR := .ok, BUSY := true } ∧
      (∀ j, 64 ≤ j → byteOf t.buf j = byteOf s.buf j) ∧
      (s.BL.toNat + n.toNat < 64 →
        t.H = s.H ∧ t.core = s.core ∧
        ∀ j, j < 64 → byteOf t.buf j =
          if s.BL.toNat ≤ j ∧ j < s.BL.toNat + n.toNat then msgByte s.MSG (j - s.BL.toNat) else byteOf s.buf j) ∧
      (64 ≤ s.BL.toNat + n.toNat →
        t.H = compress s.H
          (blockAt (fun j => if j < s.BL.toNat then byteOf s.buf j else msgByte s.MSG (j - s.BL.toNat)) 0) ∧
        ∀ j, j < 64 → byteOf t.buf j =
          if j < s.BL.toNat + n.toNat - 64 then msgByte s.MSG (used + j)
          else if s.BL.toNat = 0 then byteOf s.buf j
          else if s.BL.toNat ≤ j then msgByte s.MSG (j - s.BL.toNat) else byteOf s.buf j)

/-- R144: UPDATE n gives the same H, BL, BH and buffered bytes as absorbing the window byte by byte. -/
def Obligations.UpdateMatchesByteSerialAbsorption : Prop :=
  ∀ (n : BitVec 7) (s : State), s.BUSY = false → s.FIN = false → n.toNat ≤ 64 →
    ∃ t, exec (.update n) s = .next t ∧
      t.H = (updateSerial n.toNat s).H ∧ t.BL = (updateSerial n.toNat s).BL ∧ t.BH = (updateSerial n.toNat s).BH ∧
      ∀ j, j < t.BL.toNat → byteOf t.buf j = byteOf (updateSerial n.toNat s).buf j

/-- R144, chunking invariance: from any live state, absorbing `a + b` window bytes at once, or the first `a` and then,
with the window reloaded, the other `b`, leaves the same H, BL, BH and buffered bytes. -/
def Obligations.SplittingAnUpdateChangesNothing : Prop :=
  ∀ (a b : Nat) (s t u v : State) (window : Vector Word 16),
    s.BUSY = false → s.FIN = false → a + b ≤ 64 →
    (∀ p, p < b → msgByte window p = msgByte s.MSG (a + p)) →
    exec (.update (BitVec.ofNat 7 (a + b))) s = .next t →
    exec (.update (BitVec.ofNat 7 a)) s = .next u →
    exec (.update (BitVec.ofNat 7 b)) { u with BUSY := false, MSG := window } = .next v →
    v.H = t.H ∧ v.BL = t.BL ∧ v.BH = t.BH ∧ ∀ j, j < t.BL.toNat → byteOf v.buf j = byteOf t.buf j

/-- R144: a live hasher that has absorbed the message `m` has, after UPDATE n, absorbed `m` followed by the n window
bytes. -/
def Obligations.UpdateExtendsTheAbsorbedStream : Prop :=
  ∀ (m : List Byte) (n : BitVec 7) (s : State),
    s.BUSY = false → s.FIN = false → n.toNat ≤ 64 → AbsorbedStream m s →
    ∃ t, exec (.update n) s = .next t ∧ t.FIN = false ∧ t.ERR = .ok ∧
      AbsorbedStream (m ++ windowBytes s.MSG n.toNat) t

/-- R201, R202: UPDATE of a finished hasher is rejected with USE_AFTER_FINISH, n = 0 included, but with BAD_LEN if n
is out of range; either changes ERR alone. -/
def Obligations.UpdateIsRejectedByItsErrors : Prop :=
  ∀ (n : BitVec 7) (s : State), s.BUSY = false →
    (n.toNat ≤ 64 → s.FIN = true → exec (.update n) s = .next { s with ERR := .useAfterFinish }) ∧
    (64 < n.toNat → exec (.update n) s = .next { s with ERR := .badLen })

/-- R145: FINISH of a live hasher writes 0x80, zeros and the length field after the buffered bytes, compresses the one
or two padded blocks, sets FIN and keeps BL and BH. Nothing else changes but the core's working registers. -/
def Obligations.FinishPadsAndCompresses : Prop :=
  ∀ s : State, s.BUSY = false → s.FIN = false → CursorOk s.BL s.BH →
    let P := if s.BL.toNat < 56 then 64 else 128
    ∃ t, exec .finish s = .next t ∧ t.FIN = true ∧
      t.H = hashBlocks (byteOf t.buf) s.H (P / 64) ∧
      (∀ j, j < 128 → byteOf t.buf j =
        if j < s.BL.toNat then byteOf s.buf j
        else if j = s.BL.toNat then 0x80
        else if j < P - 8 then 0
        else if j < P then BitVec.ofNat 8 (8 * s.BH.toNat % 2 ^ 64 / 2 ^ (8 * (j - (P - 8))))
        else byteOf s.buf j) ∧
      t = { s with H := t.H, core := t.core, buf := t.buf, FIN := true, ERR := .ok, BUSY := true }

/-- R145, R140: FINISH of a finished hasher succeeds, sets ERR to OK and begins a BUSY window, and changes nothing else,
the digest included. That BUSY rises is notes/assumptions/18.md and 2.md (DEDUCED). -/
def Obligations.FinishAgainKeepsTheDigest : Prop :=
  ∀ s : State, s.BUSY = false → s.FIN = true → exec .finish s = .next { s with ERR := .ok, BUSY := true }

/-- R145, R146: FINISH of a live hasher that has absorbed the message `m`, of any length, leaves in H the MD5 state of
the padded stream of `m`, and once BUSY=0 the DIGEST registers read its words, whose lanes are the digest bytes in order
(R54). -/
def Obligations.FinishYieldsTheDigestOfTheStream : Prop :=
  ∀ (m : List Byte) (s : State), s.BUSY = false → s.FIN = false → AbsorbedStream m s →
    ∃ t, exec .finish s = .next t ∧ t.FIN = true ∧ t.H = md5 m ∧
      ∀ k : BitVec 2, ∃ u, exec (.rdDigest k) (complete t) = .next u ∧ u.rdata = wordOf (md5 m) k.toNat ∧
        ∀ j, j < 4 → (digestBytes (md5 m)).getD (4 * k.toNat + j) 0 = laneOf u.rdata j

/-- R146: the padded stream is N + 1 + z + 8 bytes long, a whole number of blocks, of which FINISH compresses one if
N mod 64 ≤ 55 and two otherwise, the others being the whole blocks of the message. -/
def Obligations.PaddedStreamIsWholeBlocks : Prop :=
  ∀ m : List Byte,
    (paddedStream m).length = m.length + 1 + zeroCount m.length + 8 ∧
    (paddedStream m).length % 64 = 0 ∧
    (zeroCount m.length : Int) = (55 - (m.length : Int)) % 64 ∧
    (paddedStream m).length / 64 = m.length / 64 + (if m.length % 64 ≤ 55 then 1 else 2) ∧
    paddedLength (BitVec.ofNat 64 m.length) = 64 * (if m.length % 64 ≤ 55 then 1 else 2)

/-- R150: SAVE s of a live hasher copies H, buf[0..63], BL and BH to slot s and marks it valid; no other slot and
nothing else changes. -/
def Obligations.SaveTakesASnapshot : Prop :=
  ∀ (k : BitVec 4) (s : State), s.BUSY = false → s.FIN = false → k.toNat < Config.numSlots →
    ∃ t, exec (.save k) s = .next t ∧
      (slotOf t k.toNat).valid = true ∧ (slotOf t k.toNat).H = s.H ∧ (slotOf t k.toNat).BL = s.BL ∧
      (slotOf t k.toNat).BH = s.BH ∧ (∀ j, j < 64 → byteOf (slotOf t k.toNat).buf j = byteOf s.buf j) ∧
      (∀ x, x ≠ k.toNat → slotOf t x = slotOf s x) ∧
      t = { s with slots := t.slots, ERR := .ok, BUSY := true }

/-- R152: RESTORE s of a valid slot loads H, buf[0..63], BL and BH from it and clears FIN, in a live or a finished
hasher; buf[64..127], the slots and everything else keep their values. -/
def Obligations.RestoreReloadsTheSlot : Prop :=
  ∀ (k : BitVec 4) (s : State), s.BUSY = false → k.toNat < Config.numSlots → (slotOf s k.toNat).valid = true →
    ∃ t, exec (.restore k) s = .next t ∧
      (∀ j, j < 64 → byteOf t.buf j = byteOf (slotOf s k.toNat).buf j) ∧
      (∀ j, 64 ≤ j → byteOf t.buf j = byteOf s.buf j) ∧
      t = { s with H := (slotOf s k.toNat).H, BL := (slotOf s k.toNat).BL, BH := (slotOf s k.toNat).BH, FIN := false,
                   buf := t.buf, ERR := .ok, BUSY := true }

/-- R155: DROP s zeroes slot s and marks it invalid, valid before or not, live hasher or finished; nothing else
changes. -/
def Obligations.DropClearsTheSlot : Prop :=
  ∀ (k : BitVec 4) (s : State), s.BUSY = false → k.toNat < Config.numSlots →
    ∃ t, exec (.drop k) s = .next t ∧
      (slotOf t k.toNat).valid = false ∧ (slotOf t k.toNat).BL = 0 ∧ (slotOf t k.toNat).BH = 0 ∧
      (∀ j, j < 4 → wordOf (slotOf t k.toNat).H j = 0) ∧ (∀ j, j < 64 → byteOf (slotOf t k.toNat).buf j = 0) ∧
      (∀ x, x ≠ k.toNat → slotOf t x = slotOf s x) ∧
      t = { s with slots := t.slots, ERR := .ok, BUSY := true }

/-- R150, R152, R202: a slot command is rejected with BAD_SLOT for an index past the slots, whatever FIN is, and
otherwise SAVE of a finished hasher with SAVE_FINISHED and RESTORE of an invalid slot with EMPTY_SLOT; each rejection
changes ERR alone. -/
def Obligations.SlotCommandsAreRejectedByTheirErrors : Prop :=
  ∀ (k : BitVec 4) (s : State), s.BUSY = false →
    (Config.numSlots ≤ k.toNat →
      exec (.save k) s = .next { s with ERR := .badSlot } ∧ exec (.restore k) s = .next { s with ERR := .badSlot } ∧
      exec (.drop k) s = .next { s with ERR := .badSlot }) ∧
    (k.toNat < Config.numSlots → s.FIN = true → exec (.save k) s = .next { s with ERR := .saveFinished }) ∧
    (k.toNat < Config.numSlots → (slotOf s k.toNat).valid = false →
      exec (.restore k) s = .next { s with ERR := .emptySlot })

/-- R152, save and restore fidelity: whatever happens in between, as long as the slot is kept, RESTORE brings back the
message SAVE had absorbed, and the hasher is live. -/
def Obligations.RestoreBringsBackTheSavedStream : Prop :=
  ∀ (k : BitVec 4) (m : List Byte) (s t u : State),
    s.BUSY = false → s.FIN = false → k.toNat < Config.numSlots → AbsorbedStream m s →
    exec (.save k) s = .next t → u.BUSY = false → slotOf u k.toNat = slotOf t k.toNat →
    ∃ v, exec (.restore k) u = .next v ∧ v.FIN = false ∧ AbsorbedStream m v

/-- R75: a word with a reserved opcode, whatever its other bits, is rejected with BAD_OP and changes ERR alone. -/
def Obligations.ReservedOpcodeIsRejected : Prop :=
  ∀ (c : Word) (s : State), s.BUSY = false → (Instr.reservedOpcode c).wellFormed = true →
    exec (.reservedOpcode c) s = .next { s with ERR := .badOp }

/-- R180, R140: a write to CMD while BUSY=0 runs the decoded command; its code is the decoder's, else the command's,
and a rejection changes ERR alone. -/
def Obligations.WriteCmdRunsTheDecodedCommand : Prop :=
  ∀ (v : Word) (s : State), s.BUSY = false →
    (∀ e, decodeCmd Config.numSlots v = .error e → exec (.wrCmd v) s = .next { s with ERR := e }) ∧
    (∀ cmd e, decodeCmd Config.numSlots v = .ok cmd → runCmd cmd s = .error e →
      exec (.wrCmd v) s = .next { s with ERR := e }) ∧
    (∀ cmd t, decodeCmd Config.numSlots v = .ok cmd → runCmd cmd s = .ok t →
      exec (.wrCmd v) s = .next { t with ERR := .ok, BUSY := true })

/-! ### Bus transactions -/

/-- R186, R52: a write to MSGk while BUSY=0, FIN=1 or not, stores the word: its four lanes are message bytes 4k to
4k+3 in order, every other message byte keeps its value, and no command starts. -/
def Obligations.WriteMsgPlacesFourMessageBytes : Prop :=
  ∀ (k : BitVec 4) (v : Word) (s : State), s.BUSY = false →
    ∃ t, exec (.wrMsg k v) s = .next t ∧
      wordOf t.MSG k.toNat = v ∧
      (∀ j, j < 4 → (msgByte t.MSG (4 * k.toNat + j)).toNat = v.toNat / 2 ^ (8 * j) % 256) ∧
      (∀ p, p < 4 * k.toNat ∨ 4 * k.toNat + 4 ≤ p → msgByte t.MSG p = msgByte s.MSG p) ∧
      t = { s with MSG := t.MSG }

/-- R181, R33: while BUSY=0 a read of STATUS returns every field in its place, the reserved bits 0, and changes
nothing. -/
def Obligations.StatusReadReturnsEveryField : Prop :=
  ∀ s : State, s.BUSY = false →
    ∃ t, exec .rdStatus s = .next t ∧ t = { s with rdata := t.rdata } ∧
      t.rdata.getLsbD 0 = false ∧ t.rdata.getLsbD 1 = s.FIN ∧ t.rdata.getLsbD 2 = s.OVR ∧
      t.rdata.getLsbD 3 = false ∧ t.rdata.extractLsb' 4 4 = s.ERR.code ∧ t.rdata.extractLsb' 8 6 = s.BL ∧
      t.rdata.extractLsb' 14 2 = 0 ∧
      (∀ k, k < 8 → t.rdata.getLsbD (16 + k) = (decide (k < Config.numSlots) && (slotOf s k).valid)) ∧
      t.rdata.extractLsb' 24 8 = 0

/-- R187: while BUSY=1 a read of STATUS returns BUSY, ERR and OVR exactly. Of FINISHED, BUFLEN and the SLOTV bits of the
slots there are, the statement says nothing: they are any value. The reserved bits and the SLOTV bits past the last slot
read 0 then too (R33, and spec/93_implementation_defined.md section 3, which calls them exact). `draws`, which goes up by
one, is the model's own count of free values (notes/assumptions/3.md, DESIGN CHOICE). -/
def Obligations.StatusReadWhileBusyIsExactInThreeFields : Prop :=
  ∀ s : State, s.BUSY = true →
    ∃ t, exec .rdStatus s = .next t ∧ t = { s with rdata := t.rdata, draws := s.draws + 1 } ∧
      t.rdata.getLsbD 0 = true ∧ t.rdata.getLsbD 2 = s.OVR ∧ t.rdata.extractLsb' 4 4 = s.ERR.code ∧
      t.rdata.getLsbD 3 = false ∧ t.rdata.extractLsb' 14 2 = 0 ∧ t.rdata.extractLsb' 24 8 = 0 ∧
      ∀ k, k < 8 → Config.numSlots ≤ k → t.rdata.getLsbD (16 + k) = false

/-- R182, R183: BYTES_LO and BYTES_HI return the two halves of BH while BUSY=0; while BUSY=1 they return any value.
In neither case does anything of the block change: `draws`, which goes up by one while BUSY=1, is the model's own count of
free values (notes/assumptions/3.md, DESIGN CHOICE). -/
def Obligations.ByteCountReadsReturnItsHalves : Prop :=
  ∀ s : State,
    ∃ lo hi, exec .rdBytesLo s = .next lo ∧ exec .rdBytesHi s = .next hi ∧
      (s.BUSY = false → lo = { s with rdata := lo.rdata } ∧ hi = { s with rdata := hi.rdata } ∧
        lo.rdata.toNat = s.BH.toNat % 2 ^ 32 ∧ hi.rdata.toNat = s.BH.toNat / 2 ^ 32) ∧
      (s.BUSY = true → lo = { s with rdata := lo.rdata, draws := s.draws + 1 } ∧
        hi = { s with rdata := hi.rdata, draws := s.draws + 1 })

/-- R184: DIGESTk returns H[k] with FIN=1 and BUSY=0, and 0 otherwise, and changes nothing. -/
def Obligations.DigestReadIsGatedByFinAndBusy : Prop :=
  ∀ (k : BitVec 2) (s : State),
    (s.FIN = true → s.BUSY = false → exec (.rdDigest k) s = .next { s with rdata := wordOf s.H k.toNat }) ∧
    (s.FIN = false ∨ s.BUSY = true → exec (.rdDigest k) s = .next { s with rdata := 0 })

/-- R185: in every state, BUSY or not, a read of CMD, MSGk or a reserved offset returns 0, a write to a read-only or
reserved offset is ignored, and none of these changes any state of the block or sets OVR; by instruction, and by the
selectors R185 lists. -/
def Obligations.OtherTransactionsReadZeroOrAreIgnored : Prop :=
  ∀ s : State,
    exec .rdCmd s = .next { s with rdata := 0 } ∧
    (∀ k, exec (.rdMsg k) s = .next { s with rdata := 0 }) ∧
    (∀ k, exec (.rdReserved08 k) s = .next { s with rdata := 0 }) ∧
    (∀ k, exec (.rdReserved20 k) s = .next { s with rdata := 0 }) ∧
    (∀ v, exec (.wrStatus v) s = .next s) ∧
    (∀ hi v, exec (.wrBytes hi v) s = .next s) ∧
    (∀ k v, exec (.wrDigest k v) s = .next s) ∧
    (∀ k v, exec (.wrReserved48 k v) s = .next s) ∧
    (∀ k v, exec (.wrReserved60 k v) s = .next s) ∧
    (∀ (sel : BitVec 7) (v : Word), sel.toNat = 0x00 ∨ (0x08 ≤ sel.toNat ∧ sel.toNat ≤ 0x3F) →
      hostStep (.bus sel v) s = .next { s with rdata := 0 }) ∧
    (∀ (sel : BitVec 7) (v : Word), (0x41 ≤ sel.toNat ∧ sel.toNat ≤ 0x4F) ∨ 0x60 ≤ sel.toNat →
      hostStep (.bus sel v) s = .next s)

/-! ### What the core computes, in the spec's own numbers -/

/-- R105 to R107: the schedule index, the rotation amount and the additive constant of each of the 64 rounds, as the table
of R107 prints them. -/
def Obligations.RoundTableIsTheSpecs : Prop :=
  (List.range 64).map (fun i => (schedIndex i, rotationAmount i, sineConstant i)) =
    (
     [(0, 7, 0xd76aa478), (1, 12, 0xe8c7b756), (2, 17, 0x242070db), (3, 22, 0xc1bdceee)] ++
     [(4, 7, 0xf57c0faf), (5, 12, 0x4787c62a), (6, 17, 0xa8304613), (7, 22, 0xfd469501)] ++
     [(8, 7, 0x698098d8), (9, 12, 0x8b44f7af), (10, 17, 0xffff5bb1), (11, 22, 0x895cd7be)] ++
     [(12, 7, 0x6b901122), (13, 12, 0xfd987193), (14, 17, 0xa679438e), (15, 22, 0x49b40821)] ++
     [(1, 5, 0xf61e2562), (6, 9, 0xc040b340), (11, 14, 0x265e5a51), (0, 20, 0xe9b6c7aa)] ++
     [(5, 5, 0xd62f105d), (10, 9, 0x02441453), (15, 14, 0xd8a1e681), (4, 20, 0xe7d3fbc8)] ++
     [(9, 5, 0x21e1cde6), (14, 9, 0xc33707d6), (3, 14, 0xf4d50d87), (8, 20, 0x455a14ed)] ++
     [(13, 5, 0xa9e3e905), (2, 9, 0xfcefa3f8), (7, 14, 0x676f02d9), (12, 20, 0x8d2a4c8a)] ++
     [(5, 4, 0xfffa3942), (8, 11, 0x8771f681), (11, 16, 0x6d9d6122), (14, 23, 0xfde5380c)] ++
     [(1, 4, 0xa4beea44), (4, 11, 0x4bdecfa9), (7, 16, 0xf6bb4b60), (10, 23, 0xbebfbc70)] ++
     [(13, 4, 0x289b7ec6), (0, 11, 0xeaa127fa), (3, 16, 0xd4ef3085), (6, 23, 0x04881d05)] ++
     [(9, 4, 0xd9d4d039), (12, 11, 0xe6db99e5), (15, 16, 0x1fa27cf8), (2, 23, 0xc4ac5665)] ++
     [(0, 6, 0xf4292244), (7, 10, 0x432aff97), (14, 15, 0xab9423a7), (5, 21, 0xfc93a039)] ++
     [(12, 6, 0x655b59c3), (3, 10, 0x8f0ccc92), (10, 15, 0xffeff47d), (1, 21, 0x85845dd1)] ++
     [(8, 6, 0x6fa87e4f), (15, 10, 0xfe2ce6e0), (6, 15, 0xa3014314), (13, 21, 0x4e0811a1)] ++
     [(4, 6, 0xf7537e82), (11, 10, 0xbd3af235), (2, 15, 0x2ad7d2bb), (9, 21, 0xeb86d391)] : List (Nat × Nat × Word))

/-- R100 to R111, with the round update of spec/90_conflicts.md C1: a compression decodes the block little-endian, loads the
working variables from the state, runs the rounds 0 to 63 in order, each with the function its index selects, and adds the
variables into the state word by word. -/
def Obligations.CompressRunsTheRoundsInOrder : Prop :=
  ∀ (h : Vector Word 4) (blk : Vector Byte 64), ∃ (W : Nat → Word) (a b c d : Nat → Word),
    (∀ j, j < 16 → (W j).toNat = (byteOf blk (4 * j)).toNat + 2 ^ 8 * (byteOf blk (4 * j + 1)).toNat +
      2 ^ 16 * (byteOf blk (4 * j + 2)).toNat + 2 ^ 24 * (byteOf blk (4 * j + 3)).toNat) ∧
    (a 0 = wordOf h 0 ∧ b 0 = wordOf h 1 ∧ c 0 = wordOf h 2 ∧ d 0 = wordOf h 3) ∧
    (∀ i, i < 64 →
      let f := if i < 16 then (b i &&& c i) ||| (~~~(b i) &&& d i)
        else if i < 32 then (b i &&& d i) ||| (c i &&& ~~~(d i))
        else if i < 48 then b i ^^^ c i ^^^ d i
        else c i ^^^ (b i ||| ~~~(d i))
      let T := f + a i + sineConstant i + W (schedIndex i)
      a (i + 1) = d i ∧
      b (i + 1) = b i + ((T <<< rotationAmount i) ||| (T >>> (32 - rotationAmount i))) ∧
      c (i + 1) = b i ∧ d (i + 1) = c i) ∧
    compress h blk = #v[wordOf h 0 + a 64, wordOf h 1 + b 64, wordOf h 2 + c 64, wordOf h 3 + d 64]

/-- R111's example and the source's known answers (spec/95_test_vectors.md section 1.1; its last row is a composition made
by the host, R4): the digest words of each message. -/
def Obligations.KnownAnswersHold : Prop :=
  compress IV (blockAt (fun j => if j = 0 then 0x80 else 0) 0) = #v[0xd98c1dd4, 0x04b2008f, 0x980980e9, 0x7e42f8ec] ∧
  md5 [] = #v[0xd98c1dd4, 0x04b2008f, 0x980980e9, 0x7e42f8ec] ∧
  md5 [0x68, 0x65, 0x6c, 0x6c, 0x6f, 0x77, 0x6f, 0x72, 0x6c, 0x64] =
    #v[0x8d035efc, 0x3270a538, 0xe7415408, 0xb01070fe] ∧
  md5 (List.replicate 6 [0x31, 0x32, 0x33, 0x34, 0x35, 0x36, 0x37, 0x38, 0x39, 0x30]).flatten =
    #v[0x3749b5c5, 0xc36c827c, 0xb0182471, 0x7e41fc64] ∧
  md5 [0xe8, 0x8a, 0xb1, 0xe6, 0xbe, 0xa4, 0xe9, 0xa6, 0x99, 0xe8, 0x8f, 0x9c] =
    #v[0xca69ac3d, 0x37baee69, 0xf80ee4e0, 0x566e85ce] ∧
  md5 [0xe5, 0xb0, 0x8f, 0xe5, 0x80, 0x89, 0xe5, 0x94, 0xaf] = #v[0x664b8459, 0x7dcfb474, 0x0d155bac, 0x1b33327c] ∧
  md5 [0x20, 0x30] = #v[0xc051ad0b, 0x77bab2b9, 0xbff69bc1, 0xc38df8bb]

/-! ### The host's spellings -/

/-- R80: `WR off, v` and `RD off` have the selectors `{1, off[7:2]}` and `{0, off[7:2]}`, at every byte offset of the window;
`WR NAME, v` and `RD NAME` are those of the register's offset in the map of R33; and a command mnemonic is the same as
`WR CMD` of its word, in every state. -/
def Obligations.HostPrimitivesNameEveryOffset : Prop :=
  (∀ (off : BitVec 8) (v : Word),
    (∃ sel, wrOff off v = .bus sel v ∧ sel.toNat = 64 + off.toNat / 4) ∧
    (∃ sel d, rdOff off = .bus sel d ∧ sel.toNat = off.toNat / 4)) ∧
  (∀ (r : RegName) (v : Word), wr r v = wrOff r.offset v ∧ rd r = rdOff r.offset) ∧
  (RegName.CMD.offset.toNat = 0x00 ∧ RegName.STATUS.offset.toNat = 0x04 ∧
    RegName.BYTES_LO.offset.toNat = 0x08 ∧ RegName.BYTES_HI.offset.toNat = 0x0C ∧
    (∀ k, (RegName.DIGEST k).offset.toNat = 0x10 + 4 * k.toNat) ∧
    (∀ k, (RegName.MSG k).offset.toNat = 0x40 + 4 * k.toNat)) ∧
  (∀ (c : Cmd) (s : State), hostStep (issueCmd c) s = hostStep (wr .CMD (encodeCmd c)) s)
end

