-- ==== Sys2Proof/Laws/Decode.lean ====
section
/-! SUPPORT. The laws of the command word: its fields, what the decoders' checks say, and that an accepted word is the
encoding of what was read from it. -/

namespace Sys2Proof

/-- A field of a word, as a number. -/
theorem extractLsb'_toNat_div (c : Word) (start len : Nat) :
    (c.extractLsb' start len).toNat = c.toNat / 2 ^ start % 2 ^ len := by
  simp [BitVec.extractLsb'_toNat, Nat.shiftRight_eq_div_pow]

theorem opField_toNat (c : Word) : (opField c).toNat = c.toNat % 16 := by simp [opField]

theorem lenField_toNat (c : Word) : (lenField c).toNat = c.toNat / 2 ^ 8 % 128 := extractLsb'_toNat_div c 8 7

theorem slotField_toNat (c : Word) : (slotField c).toNat = c.toNat / 2 ^ 16 % 16 := extractLsb'_toNat_div c 16 4

theorem extractLsb'_zero_iff (c : Word) (start len : Nat) :
    (c.extractLsb' start len == 0) = decide (c.toNat / 2 ^ start % 2 ^ len = 0) := by
  rw [← extractLsb'_toNat_div]; simp [BitVec.toNat_eq, beq_eq_decide]

/-- The must-be-zero checks of R74, as numbers. -/
theorem plainBitsClear_iff (c : Word) : plainBitsClear c = decide (c.toNat / 2 ^ 4 = 0) := by
  have := c.isLt
  rw [plainBitsClear, extractLsb'_zero_iff]; congr 1; rw [eq_iff_iff]; omega

theorem updateBitsClear_iff (c : Word) :
    updateBitsClear c = decide (c.toNat / 2 ^ 15 = 0 ∧ c.toNat / 2 ^ 4 % 16 = 0) := by
  have := c.isLt
  rw [updateBitsClear, extractLsb'_zero_iff, extractLsb'_zero_iff, Bool.and_eq_decide]
  simp only [decide_eq_true_eq]; congr 1; rw [eq_iff_iff]; omega

theorem slotBitsClear_iff (c : Word) :
    slotBitsClear c = decide (c.toNat / 2 ^ 20 = 0 ∧ c.toNat / 2 ^ 4 % 2 ^ 12 = 0) := by
  have := c.isLt
  rw [slotBitsClear, extractLsb'_zero_iff, extractLsb'_zero_iff, Bool.and_eq_decide]
  simp only [decide_eq_true_eq]; congr 1; rw [eq_iff_iff]; omega

theorem ifClear_eq_ok {α : Type} {clear : Bool} {x y : α} : ifClear clear x = .ok y ↔ clear = true ∧ x = y := by
  cases clear <;> simp [ifClear]

theorem ifClearInRange_eq_ok {α : Type} {clear inRange : Bool} {code : ErrCode} {x y : α} :
    ifClearInRange clear inRange code x = .ok y ↔ clear = true ∧ inRange = true ∧ x = y := by
  cases clear <;> cases inRange <;> simp [ifClearInRange]

/-- A word is its fields, in each of the three layouts of R74. -/
theorem word_eq_plain (c : Word) : c = c.extractLsb' 4 28 ++ c.extractLsb' 0 4 := by
  apply BitVec.eq_of_getLsbD_eq
  intro i hi
  simp only [BitVec.getLsbD_append, BitVec.getLsbD_extractLsb']
  split <;> rename_i h
  · simp [h]
  · rw [show 4 + (i - 4) = i by omega]; simp; omega

theorem word_eq_update (c : Word) :
    c = c.extractLsb' 15 17 ++ c.extractLsb' 8 7 ++ c.extractLsb' 4 4 ++ c.extractLsb' 0 4 := by
  apply BitVec.eq_of_getLsbD_eq
  intro i hi
  simp only [BitVec.getLsbD_append, BitVec.getLsbD_extractLsb']
  split <;> rename_i h
  · simp [h]
  · split <;> rename_i h'
    · rw [show 4 + (i - 4) = i by omega]; simp [h']
    · split <;> rename_i h''
      · rw [show 8 + (i - 4 - 4) = i by omega]; simp [h'']
      · rw [show 15 + (i - 4 - 4 - 7) = i by omega]; simp; omega

theorem word_eq_slot (c : Word) :
    c = c.extractLsb' 20 12 ++ c.extractLsb' 16 4 ++ c.extractLsb' 4 12 ++ c.extractLsb' 0 4 := by
  apply BitVec.eq_of_getLsbD_eq
  intro i hi
  simp only [BitVec.getLsbD_append, BitVec.getLsbD_extractLsb']
  split <;> rename_i h
  · simp [h]
  · split <;> rename_i h'
    · rw [show 4 + (i - 4) = i by omega]; simp [h']
    · split <;> rename_i h''
      · rw [show 16 + (i - 4 - 12) = i by omega]; simp [h'']
      · rw [show 20 + (i - 4 - 12 - 4) = i by omega]; simp; omega

theorem op_bits {c : Word} {x : Nat} (h : (opField c).toNat = x) : c.extractLsb' 0 4 = BitVec.ofNat 4 x := by
  subst h; apply BitVec.eq_of_toNat_eq; simp [opField]

theorem plain_word {c : Word} {x : Nat} (h : (opField c).toNat = x) (hc : plainBitsClear c = true) :
    c = 0#28 ++ BitVec.ofNat 4 x := by
  rw [plainBitsClear, beq_iff_eq] at hc
  conv_lhs => rw [word_eq_plain c, hc, op_bits h]
  rfl

theorem update_word {c : Word} {x : Nat} (h : (opField c).toNat = x) (hc : updateBitsClear c = true) :
    c = 0#17 ++ lenField c ++ 0#4 ++ BitVec.ofNat 4 x := by
  rw [updateBitsClear, Bool.and_eq_true, beq_iff_eq, beq_iff_eq] at hc
  conv_lhs => rw [word_eq_update c, hc.1, hc.2, op_bits h]
  rfl

theorem slot_word {c : Word} {x : Nat} (h : (opField c).toNat = x) (hc : slotBitsClear c = true) :
    c = 0#12 ++ slotField c ++ 0#12 ++ BitVec.ofNat 4 x := by
  rw [slotBitsClear, Bool.and_eq_true, beq_iff_eq, beq_iff_eq] at hc
  conv_lhs => rw [word_eq_slot c, hc.1, hc.2, op_bits h]
  rfl

/-- A word the block's decoder accepts is the encoding of the command it reads. -/
theorem eq_encodeCmd_of_decodeCmd {numSlots : Nat} {c : Word} {x : Cmd} (h : decodeCmd numSlots c = .ok x) :
    c = encodeCmd x := by
  unfold decodeCmd at h
  split at h
  case h_1 ho | h_2 ho | h_4 ho | h_5 ho => obtain ⟨hc, rfl⟩ := ifClear_eq_ok.mp h; exact plain_word ho hc
  case h_3 ho => obtain ⟨hc, -, rfl⟩ := ifClearInRange_eq_ok.mp h; exact update_word ho hc
  case h_6 ho | h_7 ho | h_8 ho => obtain ⟨hc, -, rfl⟩ := ifClearInRange_eq_ok.mp h; exact slot_word ho hc
  case h_9 => cases h

/-- The decoder never reports the code OK. -/
theorem decodeCmd_ne_ok (numSlots : Nat) (c : Word) : decodeCmd numSlots c ≠ .error .ok := by
  unfold decodeCmd ifClear ifClearInRange
  dsimp only
  repeat' split
  all_goals simp

/-- The command word of each command is the one its row of the table has. -/
theorem decodeCmdRow_encodeCmd (x : Cmd) : decodeCmdRow (encodeCmd x) = .ok x.toInstr := by
  cases x with
  | nop | reset | finish | clean => decide
  | update n => revert n; decide
  | save k | restore k | drop k => revert k; decide

theorem toInstr_injective {x y : Cmd} (h : x.toInstr = y.toInstr) : x = y := by
  cases x <;> cases y <;> simp_all [Cmd.toInstr]

/-- Different commands have different words. -/
theorem encodeCmd_injective {x y : Cmd} (h : encodeCmd x = encodeCmd y) : x = y := by
  have hx := decodeCmdRow_encodeCmd x
  rw [h, decodeCmdRow_encodeCmd y] at hx
  exact (toInstr_injective (Except.ok.inj hx)).symm

end Sys2Proof
end

