-- ==== Sys2Proof/Laws/Operands.lean ====
section
/-! SUPPORT. The laws of the byte and word arrays: what one entry reads after a fill, and when two arrays are equal. -/

namespace Sys2Proof.Machine

@[simp] theorem within_eq_true (lo hi j : Nat) : within lo hi j = true ↔ lo ≤ j ∧ j < hi := by
  simp [within, Nat.blt]

theorem byteOf_eq_getElem {n : Nat} (v : Vector Byte n) (j : Nat) (h : j < n) : byteOf v j = v[j] := by
  simp [byteOf, h]

theorem wordOf_eq_getElem {n : Nat} (v : Vector Word n) (j : Nat) (h : j < n) : wordOf v j = v[j] := by
  simp [wordOf, h]

/-- Past its end an array reads 0. -/
theorem byteOf_of_le {n : Nat} (v : Vector Byte n) (j : Nat) (h : n ≤ j) : byteOf v j = 0 := by
  simp [byteOf, h]

/-- Arrays that read the same at every index are equal. -/
theorem ext_byteOf {n : Nat} {v w : Vector Byte n} (h : ∀ j, j < n → byteOf v j = byteOf w j) : v = w :=
  Vector.ext fun j hj => by simpa only [byteOf_eq_getElem _ j hj] using h j hj

theorem ext_wordOf {n : Nat} {v w : Vector Word n} (h : ∀ j, j < n → wordOf v j = wordOf w j) : v = w :=
  Vector.ext fun j hj => by simpa only [wordOf_eq_getElem _ j hj] using h j hj

@[simp] theorem byteOf_replicate (n j : Nat) : byteOf (Vector.replicate n 0#8) j = 0#8 := by
  by_cases h : j < n
  · simp [byteOf, h]
  · exact byteOf_of_le _ _ (by omega)

@[simp] theorem wordOf_replicate (n j : Nat) : wordOf (Vector.replicate n 0#32) j = 0#32 := by
  by_cases h : j < n <;> simp [wordOf, h]

theorem fillFrom_getElem? (lo hi : Nat) (f : Nat → Byte) (i j : Nat) (bs : List Byte) :
    (fillFrom lo hi f i bs)[j]? = bs[j]?.map fun b => if within lo hi (i + j) then f (i + j) else b := by
  induction bs generalizing i j with
  | nil => simp [fillFrom]
  | cons b bs ih =>
    cases j with
    | zero => simp [fillFrom]
    | succ j => simp [fillFrom, ih, Nat.add_comm, Nat.add_left_comm]

/-- One byte after the loop `for j in lo .. hi-1: v[j] <- f(j)`. -/
theorem byteOf_fill {n : Nat} (v : Vector Byte n) (lo hi : Nat) (f : Nat → Byte) (j : Nat) :
    byteOf (fill v lo hi f) j = if lo ≤ j ∧ j < hi ∧ j < n then f j else byteOf v j := by
  by_cases h : j < n
  · have key := fillFrom_getElem? lo hi f 0 j v.toList
    simp only [byteOf, fill, Vector.getElem?_mk, List.getElem?_toArray, key]
    by_cases hw : lo ≤ j ∧ j < hi
    · simp [hw, h]
    · simp [hw, h]
  · rw [byteOf_of_le _ _ (by omega), byteOf_of_le _ _ (by omega), if_neg (by omega)]

/-- A fill of no byte. -/
theorem fill_empty {n : Nat} (v : Vector Byte n) (lo hi : Nat) (f : Nat → Byte) (h : hi ≤ lo) : fill v lo hi f = v :=
  ext_byteOf fun j _ => by rw [byteOf_fill, if_neg (by omega)]

/-- One byte of a block. -/
theorem byteOf_blockAt (src : Nat → Byte) (pos j : Nat) (h : j < 64) : byteOf (blockAt src pos) j = src (pos + j) := by
  simp [byteOf, blockAt, h]

/-- Two sources that agree on 64 bytes give the same block. -/
theorem blockAt_congr {src src' : Nat → Byte} {pos pos' : Nat}
    (h : ∀ j, j < 64 → src (pos + j) = src' (pos' + j)) : blockAt src pos = blockAt src' pos' :=
  ext_byteOf fun j hj => by rw [byteOf_blockAt _ _ _ hj, byteOf_blockAt _ _ _ hj, h j hj]

/-- A window word after a write. -/
theorem wordOf_setIfInBounds {n : Nat} (v : Vector Word n) (k : Nat) (x : Word) (j : Nat) (h : j < n) :
    wordOf (v.setIfInBounds k x) j = if k = j then x else wordOf v j := by
  rw [wordOf_eq_getElem _ _ h, wordOf_eq_getElem _ _ h, Vector.getElem_setIfInBounds]

end Sys2Proof.Machine
end

