-- ==== Sys2Proof/Laws/State.lean ====
section
/-! SUPPORT. What each shared update of the state leaves in each field, one lemma per field, so that no later proof
unfolds a record update. -/

namespace Sys2Proof.Machine

/-! ### `raiseErr` (R12, R204) -/

@[simp] theorem raiseErr_H (e : ErrCode) (s : State) : (raiseErr e s).H = s.H := rfl
@[simp] theorem raiseErr_core (e : ErrCode) (s : State) : (raiseErr e s).core = s.core := rfl
@[simp] theorem raiseErr_buf (e : ErrCode) (s : State) : (raiseErr e s).buf = s.buf := rfl
@[simp] theorem raiseErr_BL (e : ErrCode) (s : State) : (raiseErr e s).BL = s.BL := rfl
@[simp] theorem raiseErr_BH (e : ErrCode) (s : State) : (raiseErr e s).BH = s.BH := rfl
@[simp] theorem raiseErr_FIN (e : ErrCode) (s : State) : (raiseErr e s).FIN = s.FIN := rfl
@[simp] theorem raiseErr_slots (e : ErrCode) (s : State) : (raiseErr e s).slots = s.slots := rfl
@[simp] theorem raiseErr_MSG (e : ErrCode) (s : State) : (raiseErr e s).MSG = s.MSG := rfl
@[simp] theorem raiseErr_BUSY (e : ErrCode) (s : State) : (raiseErr e s).BUSY = s.BUSY := rfl
@[simp] theorem raiseErr_OVR (e : ErrCode) (s : State) : (raiseErr e s).OVR = s.OVR := rfl
@[simp] theorem raiseErr_ERR (e : ErrCode) (s : State) : (raiseErr e s).ERR = e := rfl
@[simp] theorem raiseErr_rst (e : ErrCode) (s : State) : (raiseErr e s).rst = s.rst := rfl
@[simp] theorem raiseErr_rdata (e : ErrCode) (s : State) : (raiseErr e s).rdata = s.rdata := rfl
@[simp] theorem raiseErr_draws (e : ErrCode) (s : State) : (raiseErr e s).draws = s.draws := rfl
@[simp] theorem raiseErr_pending (e : ErrCode) (s : State) : (raiseErr e s).pending = s.pending := rfl

/-! ### `discardWrite` (R206) -/

@[simp] theorem discardWrite_H (s : State) : (discardWrite s).H = s.H := rfl
@[simp] theorem discardWrite_core (s : State) : (discardWrite s).core = s.core := rfl
@[simp] theorem discardWrite_buf (s : State) : (discardWrite s).buf = s.buf := rfl
@[simp] theorem discardWrite_BL (s : State) : (discardWrite s).BL = s.BL := rfl
@[simp] theorem discardWrite_BH (s : State) : (discardWrite s).BH = s.BH := rfl
@[simp] theorem discardWrite_FIN (s : State) : (discardWrite s).FIN = s.FIN := rfl
@[simp] theorem discardWrite_slots (s : State) : (discardWrite s).slots = s.slots := rfl
@[simp] theorem discardWrite_MSG (s : State) : (discardWrite s).MSG = s.MSG := rfl
@[simp] theorem discardWrite_BUSY (s : State) : (discardWrite s).BUSY = s.BUSY := rfl
@[simp] theorem discardWrite_OVR (s : State) : (discardWrite s).OVR = true := rfl
@[simp] theorem discardWrite_ERR (s : State) : (discardWrite s).ERR = s.ERR := rfl
@[simp] theorem discardWrite_rst (s : State) : (discardWrite s).rst = s.rst := rfl
@[simp] theorem discardWrite_rdata (s : State) : (discardWrite s).rdata = s.rdata := rfl
@[simp] theorem discardWrite_draws (s : State) : (discardWrite s).draws = s.draws := rfl
@[simp] theorem discardWrite_pending (s : State) : (discardWrite s).pending = s.pending := rfl

/-! ### `beginBusy` (R140) -/

@[simp] theorem beginBusy_H (s : State) : (beginBusy s).H = s.H := rfl
@[simp] theorem beginBusy_core (s : State) : (beginBusy s).core = s.core := rfl
@[simp] theorem beginBusy_buf (s : State) : (beginBusy s).buf = s.buf := rfl
@[simp] theorem beginBusy_BL (s : State) : (beginBusy s).BL = s.BL := rfl
@[simp] theorem beginBusy_BH (s : State) : (beginBusy s).BH = s.BH := rfl
@[simp] theorem beginBusy_FIN (s : State) : (beginBusy s).FIN = s.FIN := rfl
@[simp] theorem beginBusy_slots (s : State) : (beginBusy s).slots = s.slots := rfl
@[simp] theorem beginBusy_MSG (s : State) : (beginBusy s).MSG = s.MSG := rfl
@[simp] theorem beginBusy_BUSY (s : State) : (beginBusy s).BUSY = true := rfl
@[simp] theorem beginBusy_OVR (s : State) : (beginBusy s).OVR = s.OVR := rfl
@[simp] theorem beginBusy_ERR (s : State) : (beginBusy s).ERR = .ok := rfl
@[simp] theorem beginBusy_rst (s : State) : (beginBusy s).rst = s.rst := rfl
@[simp] theorem beginBusy_rdata (s : State) : (beginBusy s).rdata = s.rdata := rfl
@[simp] theorem beginBusy_draws (s : State) : (beginBusy s).draws = s.draws := rfl
@[simp] theorem beginBusy_pending (s : State) : (beginBusy s).pending = s.pending := rfl

/-! ### `complete` (R240) -/

@[simp] theorem complete_H (s : State) : (complete s).H = s.H := rfl
@[simp] theorem complete_core (s : State) : (complete s).core = s.core := rfl
@[simp] theorem complete_buf (s : State) : (complete s).buf = s.buf := rfl
@[simp] theorem complete_BL (s : State) : (complete s).BL = s.BL := rfl
@[simp] theorem complete_BH (s : State) : (complete s).BH = s.BH := rfl
@[simp] theorem complete_FIN (s : State) : (complete s).FIN = s.FIN := rfl
@[simp] theorem complete_slots (s : State) : (complete s).slots = s.slots := rfl
@[simp] theorem complete_MSG (s : State) : (complete s).MSG = s.MSG := rfl
@[simp] theorem complete_BUSY (s : State) : (complete s).BUSY = false := rfl
@[simp] theorem complete_OVR (s : State) : (complete s).OVR = s.OVR := rfl
@[simp] theorem complete_ERR (s : State) : (complete s).ERR = s.ERR := rfl
@[simp] theorem complete_rst (s : State) : (complete s).rst = s.rst := rfl
@[simp] theorem complete_rdata (s : State) : (complete s).rdata = s.rdata := rfl
@[simp] theorem complete_draws (s : State) : (complete s).draws = s.draws := rfl
@[simp] theorem complete_pending (s : State) : (complete s).pending = s.pending := rfl

/-! ### `returnRead` (R188) -/

@[simp] theorem returnRead_H (v : Word) (s : State) : (returnRead v s).H = s.H := rfl
@[simp] theorem returnRead_core (v : Word) (s : State) : (returnRead v s).core = s.core := rfl
@[simp] theorem returnRead_buf (v : Word) (s : State) : (returnRead v s).buf = s.buf := rfl
@[simp] theorem returnRead_BL (v : Word) (s : State) : (returnRead v s).BL = s.BL := rfl
@[simp] theorem returnRead_BH (v : Word) (s : State) : (returnRead v s).BH = s.BH := rfl
@[simp] theorem returnRead_FIN (v : Word) (s : State) : (returnRead v s).FIN = s.FIN := rfl
@[simp] theorem returnRead_slots (v : Word) (s : State) : (returnRead v s).slots = s.slots := rfl
@[simp] theorem returnRead_MSG (v : Word) (s : State) : (returnRead v s).MSG = s.MSG := rfl
@[simp] theorem returnRead_BUSY (v : Word) (s : State) : (returnRead v s).BUSY = s.BUSY := rfl
@[simp] theorem returnRead_OVR (v : Word) (s : State) : (returnRead v s).OVR = s.OVR := rfl
@[simp] theorem returnRead_ERR (v : Word) (s : State) : (returnRead v s).ERR = s.ERR := rfl
@[simp] theorem returnRead_rst (v : Word) (s : State) : (returnRead v s).rst = s.rst := rfl
@[simp] theorem returnRead_rdata (v : Word) (s : State) : (returnRead v s).rdata = v := rfl
@[simp] theorem returnRead_draws (v : Word) (s : State) : (returnRead v s).draws = s.draws := rfl
@[simp] theorem returnRead_pending (v : Word) (s : State) : (returnRead v s).pending = s.pending := rfl

/-! ### `setSlot` (R150, R155) -/

@[simp] theorem setSlot_H (k : Nat) (x : Slot) (s : State) : (setSlot k x s).H = s.H := rfl
@[simp] theorem setSlot_core (k : Nat) (x : Slot) (s : State) : (setSlot k x s).core = s.core := rfl
@[simp] theorem setSlot_buf (k : Nat) (x : Slot) (s : State) : (setSlot k x s).buf = s.buf := rfl
@[simp] theorem setSlot_BL (k : Nat) (x : Slot) (s : State) : (setSlot k x s).BL = s.BL := rfl
@[simp] theorem setSlot_BH (k : Nat) (x : Slot) (s : State) : (setSlot k x s).BH = s.BH := rfl
@[simp] theorem setSlot_FIN (k : Nat) (x : Slot) (s : State) : (setSlot k x s).FIN = s.FIN := rfl
@[simp] theorem setSlot_slots (k : Nat) (x : Slot) (s : State) : (setSlot k x s).slots = s.slots.setIfInBounds k x := rfl
@[simp] theorem setSlot_MSG (k : Nat) (x : Slot) (s : State) : (setSlot k x s).MSG = s.MSG := rfl
@[simp] theorem setSlot_BUSY (k : Nat) (x : Slot) (s : State) : (setSlot k x s).BUSY = s.BUSY := rfl
@[simp] theorem setSlot_OVR (k : Nat) (x : Slot) (s : State) : (setSlot k x s).OVR = s.OVR := rfl
@[simp] theorem setSlot_ERR (k : Nat) (x : Slot) (s : State) : (setSlot k x s).ERR = s.ERR := rfl
@[simp] theorem setSlot_rst (k : Nat) (x : Slot) (s : State) : (setSlot k x s).rst = s.rst := rfl
@[simp] theorem setSlot_rdata (k : Nat) (x : Slot) (s : State) : (setSlot k x s).rdata = s.rdata := rfl
@[simp] theorem setSlot_draws (k : Nat) (x : Slot) (s : State) : (setSlot k x s).draws = s.draws := rfl
@[simp] theorem setSlot_pending (k : Nat) (x : Slot) (s : State) : (setSlot k x s).pending = s.pending := rfl

/-! ### `setMsg` (R186) -/

@[simp] theorem setMsg_H (k : Nat) (v : Word) (s : State) : (setMsg k v s).H = s.H := rfl
@[simp] theorem setMsg_core (k : Nat) (v : Word) (s : State) : (setMsg k v s).core = s.core := rfl
@[simp] theorem setMsg_buf (k : Nat) (v : Word) (s : State) : (setMsg k v s).buf = s.buf := rfl
@[simp] theorem setMsg_BL (k : Nat) (v : Word) (s : State) : (setMsg k v s).BL = s.BL := rfl
@[simp] theorem setMsg_BH (k : Nat) (v : Word) (s : State) : (setMsg k v s).BH = s.BH := rfl
@[simp] theorem setMsg_FIN (k : Nat) (v : Word) (s : State) : (setMsg k v s).FIN = s.FIN := rfl
@[simp] theorem setMsg_slots (k : Nat) (v : Word) (s : State) : (setMsg k v s).slots = s.slots := rfl
@[simp] theorem setMsg_MSG (k : Nat) (v : Word) (s : State) : (setMsg k v s).MSG = s.MSG.setIfInBounds k v := rfl
@[simp] theorem setMsg_BUSY (k : Nat) (v : Word) (s : State) : (setMsg k v s).BUSY = s.BUSY := rfl
@[simp] theorem setMsg_OVR (k : Nat) (v : Word) (s : State) : (setMsg k v s).OVR = s.OVR := rfl
@[simp] theorem setMsg_ERR (k : Nat) (v : Word) (s : State) : (setMsg k v s).ERR = s.ERR := rfl
@[simp] theorem setMsg_rst (k : Nat) (v : Word) (s : State) : (setMsg k v s).rst = s.rst := rfl
@[simp] theorem setMsg_rdata (k : Nat) (v : Word) (s : State) : (setMsg k v s).rdata = s.rdata := rfl
@[simp] theorem setMsg_draws (k : Nat) (v : Word) (s : State) : (setMsg k v s).draws = s.draws := rfl
@[simp] theorem setMsg_pending (k : Nat) (v : Word) (s : State) : (setMsg k v s).pending = s.pending := rfl

/-! ### `absorbBlock` (R111) -/

@[simp] theorem absorbBlock_buf (q : Nat) (blk : Vector Byte 64) (s : State) : (absorbBlock q blk s).buf = s.buf := rfl
@[simp] theorem absorbBlock_BL (q : Nat) (blk : Vector Byte 64) (s : State) : (absorbBlock q blk s).BL = s.BL := rfl
@[simp] theorem absorbBlock_BH (q : Nat) (blk : Vector Byte 64) (s : State) : (absorbBlock q blk s).BH = s.BH := rfl
@[simp] theorem absorbBlock_FIN (q : Nat) (blk : Vector Byte 64) (s : State) : (absorbBlock q blk s).FIN = s.FIN := rfl
@[simp] theorem absorbBlock_slots (q : Nat) (blk : Vector Byte 64) (s : State) : (absorbBlock q blk s).slots = s.slots := rfl
@[simp] theorem absorbBlock_MSG (q : Nat) (blk : Vector Byte 64) (s : State) : (absorbBlock q blk s).MSG = s.MSG := rfl
@[simp] theorem absorbBlock_BUSY (q : Nat) (blk : Vector Byte 64) (s : State) : (absorbBlock q blk s).BUSY = s.BUSY := rfl
@[simp] theorem absorbBlock_OVR (q : Nat) (blk : Vector Byte 64) (s : State) : (absorbBlock q blk s).OVR = s.OVR := rfl
@[simp] theorem absorbBlock_ERR (q : Nat) (blk : Vector Byte 64) (s : State) : (absorbBlock q blk s).ERR = s.ERR := rfl
@[simp] theorem absorbBlock_rst (q : Nat) (blk : Vector Byte 64) (s : State) : (absorbBlock q blk s).rst = s.rst := rfl
@[simp] theorem absorbBlock_rdata (q : Nat) (blk : Vector Byte 64) (s : State) : (absorbBlock q blk s).rdata = s.rdata := rfl
@[simp] theorem absorbBlock_draws (q : Nat) (blk : Vector Byte 64) (s : State) : (absorbBlock q blk s).draws = s.draws := rfl
@[simp] theorem absorbBlock_pending (q : Nat) (blk : Vector Byte 64) (s : State) : (absorbBlock q blk s).pending = s.pending := rfl

/-! ### `hardwareReset` (R36, R230) -/

@[simp] theorem hardwareReset_H (s : State) : (hardwareReset s).H = IV := rfl
@[simp] theorem hardwareReset_core (s : State) : (hardwareReset s).core = CoreRegs.zero := rfl
@[simp] theorem hardwareReset_buf (s : State) : (hardwareReset s).buf = Vector.replicate 128 0 := rfl
@[simp] theorem hardwareReset_BL (s : State) : (hardwareReset s).BL = 0 := rfl
@[simp] theorem hardwareReset_BH (s : State) : (hardwareReset s).BH = 0 := rfl
@[simp] theorem hardwareReset_FIN (s : State) : (hardwareReset s).FIN = false := rfl
@[simp] theorem hardwareReset_slots (s : State) : (hardwareReset s).slots = Vector.replicate Config.numSlots Slot.empty := rfl
@[simp] theorem hardwareReset_MSG (s : State) : (hardwareReset s).MSG = Vector.replicate 16 0 := rfl
@[simp] theorem hardwareReset_BUSY (s : State) : (hardwareReset s).BUSY = false := rfl
@[simp] theorem hardwareReset_OVR (s : State) : (hardwareReset s).OVR = false := rfl
@[simp] theorem hardwareReset_ERR (s : State) : (hardwareReset s).ERR = .ok := rfl
@[simp] theorem hardwareReset_rst (s : State) : (hardwareReset s).rst = true := rfl
@[simp] theorem hardwareReset_rdata (s : State) : (hardwareReset s).rdata = 0 := rfl
@[simp] theorem hardwareReset_draws (s : State) : (hardwareReset s).draws = s.draws := rfl
@[simp] theorem hardwareReset_pending (s : State) : (hardwareReset s).pending = s.pending := rfl

end Sys2Proof.Machine
end

