-- ==== Sys2Proof/Laws/Ops.lean ====
section
/-! SUPPORT. Everything each shared operation can do, said once: issuing a command, returning a read, writing a slot,
absorbing blocks, and the parts of UPDATE and FINISH. -/

namespace Sys2Proof.Machine

/-! ### Issuing a command -/

theorem issue_busy {s : State} (r : Except ErrCode State) (h : s.BUSY = true) : issue r s = discardWrite s := by
  simp [issue, h]

theorem issue_ready {s : State} (r : Except ErrCode State) (h : s.BUSY = false) : issue r s = accept r s := by
  simp [issue, h]

theorem issue_ok {s : State} (t : State) (h : s.BUSY = false) : issue (.ok t) s = beginBusy t := by
  simp [issue, accept, h]

theorem issue_error {s : State} (code : ErrCode) (h : s.BUSY = false) : issue (.error code) s = raiseErr code s := by
  simp [issue, accept, h]

/-- What issuing a command can do: it is discarded, or rejected with a code, or it runs (R180, R140). -/
theorem issue_cases (r : Except ErrCode State) (s : State) :
    (s.BUSY = true ∧ issue r s = discardWrite s) ∨
    (s.BUSY = false ∧ ∃ code, r = .error code ∧ issue r s = raiseErr code s) ∨
    (s.BUSY = false ∧ ∃ t, r = .ok t ∧ issue r s = beginBusy t) := by
  cases hb : s.BUSY with
  | true => exact .inl ⟨rfl, issue_busy r hb⟩
  | false =>
    cases r with
    | error code => exact .inr (.inl ⟨rfl, code, rfl, issue_ready _ hb⟩)
    | ok t => exact .inr (.inr ⟨rfl, t, rfl, issue_ready _ hb⟩)

/-! ### Reads -/

/-- Where each field of STATUS stands (R33, R181). -/
theorem packStatus_fields (sv : BitVec 8) (bl : BitVec 6) (e : ErrCode) (o f b : Bool) :
    let w := packStatus sv bl e o f b
    w.getLsbD 0 = b ∧ w.getLsbD 1 = f ∧ w.getLsbD 2 = o ∧ w.getLsbD 3 = false ∧ w.extractLsb' 4 4 = e.code ∧
      w.extractLsb' 8 6 = bl ∧ w.extractLsb' 14 2 = 0 ∧ w.extractLsb' 16 8 = sv ∧ w.extractLsb' 24 8 = 0 := by
  simp only [packStatus]
  refine ⟨?_, ?_, ?_, ?_, ?_, ?_, ?_, ?_, ?_⟩
  case refine_1 | refine_2 | refine_3 | refine_4 => simp only [BitVec.getLsbD_append]; simp
  all_goals
    ext i hi
    simp only [BitVec.getElem_extractLsb', BitVec.getLsbD_append]
    interval_cases i <;> simp [BitVec.getLsbD_eq_getElem]

/-- The SLOTV bits of slots past the last are 0 in every draw (R33). -/
theorem freeSlotv_past (n : Nat) {k : Nat} (h : Config.numSlots ≤ k) :
    ((Config.freeSlotv n).setWidth 8).getLsbD k = false := by
  simp [BitVec.getLsbD_setWidth, BitVec.getLsbD_of_ge _ _ h]

theorem returnOrDraw_ready {s : State} (exact drawn : Word) (h : s.BUSY = false) :
    returnOrDraw exact drawn s = { s with rdata := exact } := by
  simp [returnOrDraw, h]

theorem returnOrDraw_busy {s : State} (exact drawn : Word) (h : s.BUSY = true) :
    returnOrDraw exact drawn s = { s with rdata := drawn, draws := s.draws + 1 } := by
  simp [returnOrDraw, h]

/-! ### Slots -/

/-- A slot after a slot write (R150, R155). -/
theorem slotOf_setSlot (k : Nat) (x : Slot) (s : State) (j : Nat) :
    slotOf (setSlot k x s) j = if k = j ∧ j < Config.numSlots then x else slotOf s j := by
  by_cases h : j < Config.numSlots
  · by_cases hk : k = j <;> simp [slotOf, setSlot, h, hk]
  · simp [slotOf, setSlot, h]

/-- Past the last slot there is an empty one. -/
theorem slotOf_of_le (s : State) (k : Nat) (h : Config.numSlots ≤ k) : slotOf s k = Slot.empty := by
  simp [slotOf, h]

/-! ### Absorbing blocks -/

/-- Absorbing blocks changes only H and the core's working registers. -/
theorem absorbBlocks_frame (src : Nat → Byte) (pos q k : Nat) (s : State) :
    absorbBlocks src pos q k s =
      { s with H := (absorbBlocks src pos q k s).H, core := (absorbBlocks src pos q k s).core } := by
  induction k generalizing pos q s with
  | zero => rfl
  | succ k ih => rw [absorbBlocks, ih]; rfl

theorem compressSpan_frame (src : Nat → Byte) (pos len : Nat) (s : State) :
    compressSpan src pos len s =
      { s with H := (compressSpan src pos len s).H, core := (compressSpan src pos len s).core } :=
  absorbBlocks_frame src pos 0 (len / 64) s

/-- A span shorter than a block is not absorbed. -/
theorem compressSpan_short {src : Nat → Byte} {pos len : Nat} {s : State} (h : len < 64) :
    compressSpan src pos len s = s := by
  simp [compressSpan, Nat.div_eq_of_lt h, absorbBlocks]

theorem spanEnd_short {pos len : Nat} (h : len < 64) : spanEnd pos len = pos := by
  simp [spanEnd, Nat.div_eq_of_lt h]

/-! ### UPDATE -/

/-- UPDATE of a window that does not fill the buffer: the n bytes follow the buffered ones (R143). -/
theorem updateCmd_short {n : BitVec 7} {s : State} (hf : s.FIN = false) (h : s.BL.toNat + n.toNat < 64) :
    updateCmd n s = .ok { s with
      BH := s.BH + n.zeroExtend 64
      BL := BitVec.ofNat 6 (s.BL.toNat + n.toNat)
      buf := fill s.buf s.BL.toNat (s.BL.toNat + n.toNat) fun j => msgByte s.MSG (j - s.BL.toNat) } := by
  by_cases hb : s.BL.toNat = 0
  · have hn : n.toNat < 64 := by omega
    simp [updateCmd, hf, topUp, hb, fullBlock, compressSpan_short hn, spanEnd_short hn, keepRest]
  · have hm : min (64 - s.BL.toNat) n.toNat = n.toNat := by omega
    have hne : s.BL.toNat + n.toNat ≠ 64 := by omega
    simp [updateCmd, hf, topUp, hb, topUpCount, hm, hne, fullBlock, compressSpan_short, spanEnd_short, keepRest,
      fill_empty]

/-- UPDATE that fills a partial block: the block is compressed and the rest of the window starts the buffer (R143). -/
theorem updateCmd_fills {n : BitVec 7} {s : State} (hf : s.FIN = false) (hb : s.BL.toNat ≠ 0)
    (h : 64 ≤ s.BL.toNat + n.toNat) (hn : n.toNat ≤ 64) :
    let used := 64 - s.BL.toNat
    let full := fill s.buf s.BL.toNat 64 fun j => msgByte s.MSG (j - s.BL.toNat)
    let absorbed := absorbBlock 0 (blockAt (byteOf full) 0) s
    updateCmd n s = .ok { s with
      BH := s.BH + n.zeroExtend 64
      BL := BitVec.ofNat 6 (n.toNat - used)
      H := absorbed.H
      core := absorbed.core
      buf := fill full 0 (n.toNat - used) fun j => msgByte s.MSG (used + j) } := by
  have hBL : s.BL.toNat < 64 := s.BL.isLt
  have hm : min (64 - s.BL.toNat) n.toNat = 64 - s.BL.toNat := by omega
  have ht : s.BL.toNat + (64 - s.BL.toNat) = 64 := by omega
  have hshort : n.toNat - (64 - s.BL.toNat) < 64 := by omega
  simp [updateCmd, hf, topUp, hb, topUpCount, hm, ht, fullBlock, compressSpan_short hshort, spanEnd_short hshort,
    keepRest, absorbBlock]

/-- UPDATE of a whole window with nothing buffered: the block is compressed straight from the window (R143). -/
theorem updateCmd_whole {n : BitVec 7} {s : State} (hf : s.FIN = false) (hb : s.BL.toNat = 0) (hn : n.toNat = 64) :
    let absorbed := absorbBlock 0 (blockAt (msgByte s.MSG) 0) s
    updateCmd n s = .ok { s with
      BH := s.BH + n.zeroExtend 64
      BL := 0
      H := absorbed.H
      core := absorbed.core } := by
  simp [updateCmd, hf, topUp, hb, hn, fullBlock, compressSpan, spanEnd, absorbBlocks, absorbBlock, keepRest, fill_empty]

/-! ### FINISH -/

theorem paddedLength_le (BH : BitVec 64) : paddedLength BH ≤ 128 := by unfold paddedLength; split <;> omega

/-- One byte of the padded buffer (R145): the last line that writes it wins. -/
theorem byteOf_padBuffer (BL : Nat) (BH : BitVec 64) (buf : Vector Byte 128) (j : Nat) (hj : j < 128) :
    byteOf (padBuffer BL BH buf) j =
      if paddedLength BH - 8 ≤ j ∧ j < paddedLength BH then lengthByte BH (j - (paddedLength BH - 8))
      else if BL + 1 ≤ j ∧ j < paddedLength BH - 8 then 0
      else if j = BL then 0x80 else byteOf buf j := by
  simp only [padBuffer, byteOf_fill, hj, and_true]
  split
  · rfl
  · split
    · rfl
    · congr 1; rw [eq_iff_iff]; omega

/-- Absorbing blocks looks at nothing of the state but H and the core. -/
theorem absorbBlocks_congr (src : Nat → Byte) (pos q k : Nat) {s t : State} (hH : s.H = t.H) (hc : s.core = t.core) :
    (absorbBlocks src pos q k s).H = (absorbBlocks src pos q k t).H ∧
      (absorbBlocks src pos q k s).core = (absorbBlocks src pos q k t).core := by
  induction k generalizing pos q s t with
  | zero => exact ⟨hH, hc⟩
  | succ k ih =>
    have h1 : (absorbBlock q (blockAt src pos) s).H = (absorbBlock q (blockAt src pos) t).H := by
      simp [absorbBlock, hH]
    have h2 : (absorbBlock q (blockAt src pos) s).core = (absorbBlock q (blockAt src pos) t).core := by
      simp [absorbBlock, hH]
    exact ih _ _ h1 h2

/-- FINISH of a live hasher (R145). -/
theorem finishCmd_live {s : State} (hf : s.FIN = false) :
    let padded := padBuffer s.BL.toNat s.BH s.buf
    let absorbed := compressSpan (byteOf padded) 0 (paddedLength s.BH) s
    finishCmd s = .ok { s with buf := padded, H := absorbed.H, core := absorbed.core, FIN := true } := by
  have key := absorbBlocks_congr (byteOf (padBuffer s.BL.toNat s.BH s.buf)) 0 0 (paddedLength s.BH / 64)
    (s := { s with buf := padBuffer s.BL.toNat s.BH s.buf }) (t := s) rfl rfl
  rw [finishCmd, if_neg (by simp [hf])]
  dsimp only
  rw [compressSpan_frame]
  simp only [compressSpan, key.1, key.2]

end Sys2Proof.Machine
end

