-- ==== Sys2Proof/Laws/PerInstr.lean ====
section
/-! SUPPORT. The family of statements made per instruction: the encoded word of a well-formed instruction belongs to
the instruction's own row of spec/opcode_table.json. -/

namespace Sys2Proof.Laws.TableRow

/-- The host word of a well-formed instruction has the fixed bits of the instruction's row. -/
@[reducible] def Statement (i : Instr) : Prop := i.wellFormed = true → i.row.covers (encode i) = true

theorem nop : Statement .nop := by decide
theorem reset : Statement .reset := by decide
theorem update (n : BitVec 7) : Statement (.update n) := by revert n; decide
theorem finish : Statement .finish := by decide
theorem clean : Statement .clean := by decide
theorem save (slot : BitVec 4) : Statement (.save slot) := by revert slot; decide
theorem restore (slot : BitVec 4) : Statement (.restore slot) := by revert slot; decide
theorem drop (slot : BitVec 4) : Statement (.drop slot) := by revert slot; decide

/-- OP is 8 or more exactly when bit 3 is set (R71, R75). -/
theorem reservedOpcode (c : Word) : Statement (.reservedOpcode c) := by
  intro h
  have hop : ∀ op : BitVec 4, 8 ≤ op.toNat → op.getLsbD 3 = true := by decide
  have hbit : c.getLsbD 3 = true := by simpa using hop (c.extractLsb' 0 4) (by simpa [Instr.wellFormed] using h)
  have hword : c &&& 8#32 = 8#32 := by
    apply BitVec.eq_of_getLsbD_eq
    intro i hi
    have h8 : ∀ i : Fin 32, (8#32).getLsbD i = decide (i.val = 3) := by decide
    have := h8 ⟨i, hi⟩
    by_cases h3 : i = 3
    · subst h3; simp [hbit]
    · simp_all
  simp [Instr.row, encode, OpcodeRow.covers, hword]

theorem wrCmd (v : Word) : Statement (.wrCmd v) := by simp [Statement, Instr.row, encode, OpcodeRow.covers]
theorem rdStatus : Statement .rdStatus := by decide
theorem rdBytesLo : Statement .rdBytesLo := by decide
theorem rdBytesHi : Statement .rdBytesHi := by decide
theorem rdDigest (k : BitVec 2) : Statement (.rdDigest k) := by revert k; decide

theorem wrMsg (k : BitVec 4) (v : Word) : Statement (.wrMsg k v) := by
  have h : ∀ k : BitVec 4, Statement (.wrMsg k 0) := by decide
  exact h k

theorem rdCmd : Statement .rdCmd := by decide
theorem rdMsg (k : BitVec 4) : Statement (.rdMsg k) := by revert k; decide
theorem rdReserved08 (k : BitVec 3) : Statement (.rdReserved08 k) := by revert k; decide
theorem rdReserved20 (k : BitVec 5) : Statement (.rdReserved20 k) := by revert k; decide
theorem wrStatus (v : Word) : Statement (.wrStatus v) := by simp [Statement, Instr.row, encode, OpcodeRow.covers]

theorem wrBytes (hi : BitVec 1) (v : Word) : Statement (.wrBytes hi v) := by
  have h : ∀ hi : BitVec 1, Statement (.wrBytes hi 0) := by decide
  exact h hi

theorem wrDigest (k : BitVec 2) (v : Word) : Statement (.wrDigest k v) := by
  have h : ∀ k : BitVec 2, Statement (.wrDigest k 0) := by decide
  exact h k

theorem wrReserved48 (k : BitVec 3) (v : Word) : Statement (.wrReserved48 k v) := by
  have h : ∀ k : BitVec 3, Statement (.wrReserved48 k 0) := by decide
  exact h k

theorem wrReserved60 (k : BitVec 5) (v : Word) : Statement (.wrReserved60 k v) := by
  have h : ∀ k : BitVec 5, Statement (.wrReserved60 k 0) := by decide
  exact h k

end Sys2Proof.Laws.TableRow
end

