-- ==== Sys2Proof/Laws/Steps.lean ====
section
/-! SUPPORT. What can happen, said once: which fields each command rule writes, the outcomes of an instruction, and the
outcomes of a step. Claims over every instruction or every step cite these instead of unfolding the machine. -/

namespace Sys2Proof.Machine

/-! ### Command rules -/

theorem updateCmd_frame {n : BitVec 7} {s t : State} (h : updateCmd n s = .ok t) :
    s.FIN = false ∧ t = { s with H := t.H, core := t.core, buf := t.buf, BL := t.BL, BH := t.BH } := by
  unfold updateCmd at h
  split at h
  · cases h
  · rename_i hf
    refine ⟨by simpa using hf, ?_⟩
    obtain rfl := Except.ok.inj h
    simp only [keepRest, fullBlock]
    rw [compressSpan_frame]
    unfold topUp
    split
    · rfl
    · dsimp only
      split <;> rfl

theorem finishCmd_frame {s t : State} (h : finishCmd s = .ok t) :
    t = { s with H := t.H, core := t.core, buf := t.buf, FIN := true } ∧ (s.FIN = true → t = s) := by
  unfold finishCmd at h
  split at h
  · rename_i hf
    obtain rfl := Except.ok.inj h
    exact ⟨by rw [← hf], fun _ => rfl⟩
  · rename_i hf
    obtain rfl := Except.ok.inj h
    refine ⟨?_, fun h => absurd h hf⟩
    rw [compressSpan_frame]

/-- A rule never reports the code OK. -/
theorem runCmd_ne_ok (c : Cmd) (s : State) : runCmd c s ≠ .error .ok := by
  cases c <;> simp only [runCmd, nopCmd, resetCmd, updateCmd, finishCmd, cleanCmd, saveCmd, restoreCmd, dropCmd] <;>
    (repeat' split) <;> simp

/-- The fields a command that succeeds leaves as they were, and the commands that write the others. -/
structure RunFrame (c : Cmd) (s t : State) : Prop where
  BUSY : t.BUSY = s.BUSY
  ERR : t.ERR = s.ERR
  rst : t.rst = s.rst
  rdata : t.rdata = s.rdata
  draws : t.draws = s.draws
  pending : t.pending = s.pending
  OVR : t.OVR = s.OVR ∨ (c = .reset ∨ c = .clean) ∧ t.OVR = false
  FIN : t.FIN = s.FIN ∨ c = .finish ∧ t.FIN = true ∨ (c = .reset ∨ c = .clean ∨ ∃ k, c = .restore k) ∧ t.FIN = false
  H : t.H = s.H ∨ c = .finish ∧ s.FIN = false ∨ (∃ n, c = .update n) ∧ s.FIN = false ∨ c = .reset ∨ c = .clean ∨
    ∃ k, c = .restore k
  slots : (∀ k, slotOf t k = slotOf s k) ∨
    ∃ j : BitVec 4, (c = .save j ∨ c = .drop j) ∧ ∀ k, k ≠ j.toNat → slotOf t k = slotOf s k
  MSG : t.MSG = s.MSG ∨ c = .clean

theorem runCmd_frame {c : Cmd} {s t : State} (h : runCmd c s = .ok t) : RunFrame c s t := by
  cases c with
  | nop | reset | clean => obtain rfl := Except.ok.inj h; constructor <;> simp [slotOf]
  | update n =>
    obtain ⟨hf, e⟩ := updateCmd_frame h
    rw [e]; constructor <;> simp [hf, slotOf]
  | finish =>
    obtain ⟨e, hf⟩ := finishCmd_frame h
    cases hs : s.FIN with
    | true => rw [hf hs]; constructor <;> simp
    | false => rw [e]; constructor <;> simp [hs, slotOf]
  | save j =>
    simp only [runCmd, saveCmd] at h
    split at h
    · cases h
    · obtain rfl := Except.ok.inj h
      constructor <;> simp
      exact .inr fun k hk => by rw [slotOf_setSlot, if_neg (by omega)]
  | restore j =>
    simp only [runCmd, restoreCmd] at h
    split at h
    · obtain rfl := Except.ok.inj h; constructor <;> simp [slotOf]
    · cases h
  | drop j =>
    obtain rfl := Except.ok.inj h
    constructor <;> simp
    exact .inr fun k hk => by rw [slotOf_setSlot, if_neg (by omega)]

/-! ### Instructions -/

/-- A write to CMD: its command is discarded, rejected or run (R180, R140). -/
theorem execWrCmd_cases {v : Word} {s t : State} (h : exec (.wrCmd v) s = .next t) :
    (s.BUSY = true ∧ t = discardWrite s) ∨ (s.BUSY = false ∧ ∃ e, e ≠ .ok ∧ t = raiseErr e s) ∨
    (s.BUSY = false ∧ ∃ c u, v = encodeCmd c ∧ runCmd c s = .ok u ∧ t = beginBusy u) := by
  simp only [exec, execWrCmd, Host.Outcome.next.injEq] at h
  subst h
  obtain ⟨hb, e⟩ | ⟨hb, c, hc, e⟩ | ⟨hb, u, hu, e⟩ := issue_cases (acceptWord v s) s
  · exact .inl ⟨hb, e⟩
  · refine .inr (.inl ⟨hb, c, ?_, e⟩)
    rintro rfl
    unfold acceptWord at hc
    split at hc
    · rename_i hd
      obtain rfl := Except.error.inj hc
      exact decodeCmd_ne_ok _ _ hd
    · exact runCmd_ne_ok _ _ hc
  · refine .inr (.inr ⟨hb, ?_⟩)
    unfold acceptWord at hu
    split at hu
    · cases hu
    · rename_i cmd hd
      exact ⟨cmd, u, eq_encodeCmd_of_decodeCmd hd, hu, e⟩

/-- UPDATE with a legal length issues its rule. -/
theorem exec_update {n : BitVec 7} (s : State) (hn : n.toNat ≤ 64) :
    exec (.update n) s = .next (issue (updateCmd n s) s) := by
  simp [exec, execUpdate, hn]

theorem exec_save {k : BitVec 4} (s : State) (hk : k.toNat < Config.numSlots) :
    exec (.save k) s = .next (issue (saveCmd k s) s) := by
  simp [exec, execSave, ifSlot, hk]

theorem exec_restore {k : BitVec 4} (s : State) (hk : k.toNat < Config.numSlots) :
    exec (.restore k) s = .next (issue (restoreCmd k s) s) := by
  simp [exec, execRestore, ifSlot, hk]

theorem exec_drop {k : BitVec 4} (s : State) (hk : k.toNat < Config.numSlots) :
    exec (.drop k) s = .next (issue (dropCmd k s) s) := by
  simp [exec, execDrop, ifSlot, hk]

/-- A command instruction issues its rule, behind the range check of its operand. -/
theorem exec_toInstr (c : Cmd) (s : State) :
    ∃ r, exec c.toInstr s = .next (issue r s) ∧ (r = runCmd c s ∨ r = .error .badLen ∨ r = .error .badSlot) := by
  cases c with
  | nop | reset | finish | clean => exact ⟨_, rfl, .inl rfl⟩
  | update n =>
    refine ⟨_, rfl, ?_⟩
    split
    · exact .inl rfl
    · exact .inr (.inl rfl)
  | save k | restore k | drop k =>
    refine ⟨_, rfl, ?_⟩
    unfold ifSlot
    split
    · exact .inl rfl
    · exact .inr (.inr rfl)

/-- A command instruction: discarded, rejected or run. -/
theorem exec_toInstr_cases {c : Cmd} {s t : State} (h : exec c.toInstr s = .next t) :
    (s.BUSY = true ∧ t = discardWrite s) ∨ (s.BUSY = false ∧ ∃ e, e ≠ .ok ∧ t = raiseErr e s) ∨
    (s.BUSY = false ∧ ∃ u, runCmd c s = .ok u ∧ t = beginBusy u) := by
  obtain ⟨r, hr, hrun⟩ := exec_toInstr c s
  simp only [hr, Host.Outcome.next.injEq] at h
  subst h
  obtain ⟨hb, e⟩ | ⟨hb, code, hc, e⟩ | ⟨hb, u, hu, e⟩ := issue_cases r s
  · exact .inl ⟨hb, e⟩
  · refine .inr (.inl ⟨hb, code, ?_, e⟩)
    rintro rfl
    obtain h | h | h := hrun
    · exact runCmd_ne_ok c s (h ▸ hc)
    · simp [h] at hc
    · simp [h] at hc
  · refine .inr (.inr ⟨hb, u, ?_, e⟩)
    obtain h | h | h := hrun
    · rw [← h, hu]
    · simp [h] at hu
    · simp [h] at hu

/-- What an instruction can do. The command `c` that runs is the instruction itself or the one whose word it writes to
CMD; any other instruction is a write to MSGk or one that changes nothing but what a read returns. -/
theorem exec_cases {i : Instr} {s t : State} (h : exec i s = .next t) :
    ((i.cmdWord?.isSome = true ∨ ∃ v, i = .wrCmd v) ∧
      ((s.BUSY = true ∧ t = discardWrite s) ∨ (s.BUSY = false ∧ ∃ e, e ≠ .ok ∧ t = raiseErr e s) ∨
        (s.BUSY = false ∧ ∃ c u, (i = c.toInstr ∨ i = .wrCmd (encodeCmd c)) ∧ runCmd c s = .ok u ∧ t = beginBusy u))) ∨
    (i.cmdWord? = none ∧ (∀ v, i ≠ .wrCmd v) ∧
      ((∃ k v, i = .wrMsg k v ∧ s.BUSY = true ∧ t = discardWrite s) ∨
        (∃ k v, i = .wrMsg k v ∧ s.BUSY = false ∧ t = setMsg k.toNat v s) ∨
        (∀ k v, i ≠ .wrMsg k v) ∧ t = { s with rdata := t.rdata, draws := t.draws })) := by
  have cmd : ∀ c : Cmd, i = c.toInstr → i.cmdWord?.isSome = true → _ := fun c hi hw =>
    (show ((i.cmdWord?.isSome = true ∨ ∃ v, i = .wrCmd v) ∧
      ((s.BUSY = true ∧ t = discardWrite s) ∨ (s.BUSY = false ∧ ∃ e, e ≠ .ok ∧ t = raiseErr e s) ∨
        (s.BUSY = false ∧ ∃ c u, (i = c.toInstr ∨ i = .wrCmd (encodeCmd c)) ∧ runCmd c s = .ok u ∧ t = beginBusy u)))
      from ⟨.inl hw, (exec_toInstr_cases (hi ▸ h)).imp_right
        (Or.imp_right fun ⟨hb, u, hu, e⟩ => ⟨hb, c, u, .inl hi, hu, e⟩)⟩)
  cases i with
  | nop => exact .inl (cmd .nop rfl rfl)
  | reset => exact .inl (cmd .reset rfl rfl)
  | update n => exact .inl (cmd (.update n) rfl rfl)
  | finish => exact .inl (cmd .finish rfl rfl)
  | clean => exact .inl (cmd .clean rfl rfl)
  | save k => exact .inl (cmd (.save k) rfl rfl)
  | restore k => exact .inl (cmd (.restore k) rfl rfl)
  | drop k => exact .inl (cmd (.drop k) rfl rfl)
  | reservedOpcode c =>
    refine .inl ⟨.inl rfl, ?_⟩
    obtain rfl := Host.Outcome.next.inj h
    cases hb : s.BUSY with
    | true => exact .inl ⟨rfl, issue_busy _ hb⟩
    | false => exact .inr (.inl ⟨rfl, .badOp, by simp, issue_ready _ hb⟩)
  | wrCmd v =>
    exact .inl ⟨.inr ⟨v, rfl⟩, (execWrCmd_cases h).imp_right
      (Or.imp_right fun ⟨hb, c, u, hv, hu, e⟩ => ⟨hb, c, u, .inr (hv ▸ rfl), hu, e⟩)⟩
  | wrMsg k v =>
    refine .inr ⟨rfl, by simp, ?_⟩
    obtain rfl := Host.Outcome.next.inj h
    cases hb : s.BUSY with
    | true => exact .inl ⟨k, v, rfl, rfl, by simp⟩
    | false => exact .inr (.inl ⟨k, v, rfl, rfl, by simp⟩)
  | rdStatus | rdBytesLo | rdBytesHi =>
    refine .inr ⟨rfl, by simp, .inr (.inr ⟨by simp, ?_⟩)⟩
    obtain rfl := Host.Outcome.next.inj h
    unfold returnOrDraw
    split <;> rfl
  | rdDigest | rdCmd | rdMsg | rdReserved08 | rdReserved20 | wrStatus | wrBytes | wrDigest | wrReserved48 |
    wrReserved60 =>
    obtain rfl := Host.Outcome.next.inj h
    exact .inr ⟨rfl, by simp, .inr (.inr ⟨by simp, rfl⟩)⟩

/-- Every instruction answers a next state. -/
theorem exec_next (i : Instr) (s : State) : ∃ t, exec i s = .next t := by
  cases i <;> exact ⟨_, rfl⟩

/-- No instruction touches the queue or the level of `rst`. -/
theorem exec_queue {i : Instr} {s t : State} (h : exec i s = .next t) : t.pending = s.pending ∧ t.rst = s.rst := by
  obtain ⟨-, ⟨-, rfl⟩ | ⟨-, e, -, rfl⟩ | ⟨-, c, u, -, hu, rfl⟩⟩ |
    ⟨-, -, ⟨k, v, -, -, rfl⟩ | ⟨k, v, -, -, rfl⟩ | ⟨-, e⟩⟩ := exec_cases h
  · exact ⟨rfl, rfl⟩
  · exact ⟨rfl, rfl⟩
  · exact ⟨(runCmd_frame hu).pending, (runCmd_frame hu).rst⟩
  · exact ⟨rfl, rfl⟩
  · exact ⟨rfl, rfl⟩
  · rw [e]; exact ⟨rfl, rfl⟩

/-! ### Steps -/

/-- A malformed command word is rejected by the block's decoder with the same code. -/
theorem decodeCmd_of_decodeCmdRow_error {numSlots : Nat} {c : Word} {e : ErrCode} (h : decodeCmdRow c = .error e) :
    e = .badOp ∧ decodeCmd numSlots c = .error .badOp := by
  unfold decodeCmdRow ifClear at h
  unfold decodeCmd ifClear ifClearInRange
  split at h <;> first | cases h | (split at h <;> simp_all)

/-- A host transaction made while `rst` = 0 runs the instruction it decodes to, or is a rejected or discarded CMD
write. -/
theorem hostStep_cases {w : HostWord} {s t : State} (h : hostStep w s = .next t) :
    (∃ i, decode w = .ok i ∧ exec i s = .next t) ∨
    (∃ c, w = .cmd c ∧ decode w = .error .badOp ∧ exec (.wrCmd c) s = .next t) := by
  unfold hostStep at h
  split at h
  · rename_i i hd; exact .inl ⟨i, hd, h⟩
  · rename_i e hd
    cases w with
    | bus sel v => simp [decode] at hd
    | cmd c =>
      obtain ⟨rfl, hc⟩ := decodeCmd_of_decodeCmdRow_error (numSlots := Config.numSlots) hd
      exact .inr ⟨c, rfl, hd, by rw [← h]; simp [exec, execWrCmd, acceptWord, hc]⟩

theorem hostStep_next (w : HostWord) (s : State) : ∃ t, hostStep w s = .next t := by
  unfold hostStep
  split
  · exact exec_next _ _
  · exact ⟨_, rfl⟩

/-- Which selectors are a write to CMD, a write to MSGk, or anything else (R77). -/
theorem decodeBus_cases (sel : BitVec 7) (v : Word) :
    (sel = 0x40#7 ∧ decodeBus sel v = .wrCmd v) ∨
    (sel ≠ 0x40#7 ∧ isCmdOrMsgWrite (.bus sel v) = true ∧
      ∃ k : BitVec 4, sel.toNat = 0x50 + k.toNat ∧ decodeBus sel v = .wrMsg k v) ∨
    (sel ≠ 0x40#7 ∧ isCmdOrMsgWrite (.bus sel v) = false ∧ (decodeBus sel v).cmdWord? = none ∧
      (∀ w, decodeBus sel v ≠ .wrCmd w) ∧ ∀ k w, decodeBus sel v ≠ .wrMsg k w) := by
  have key : ∀ sel : BitVec 7,
      isCmdOrMsgWrite (.bus sel 0) =
        (match decodeBus sel 0 with | .wrCmd _ | .wrMsg _ _ => true | _ => false) ∧
      (sel == 0x40#7) = (match decodeBus sel 0 with | .wrCmd _ => true | _ => false) ∧
      (match decodeBus sel 0 with | .wrMsg k _ => sel.toNat == 0x50 + k.toNat | _ => true) = true := by decide
  replace key := key sel
  rw [show isCmdOrMsgWrite (.bus sel v) = isCmdOrMsgWrite (.bus sel 0) from rfl]
  unfold decodeBus decodeWrite decodeRead at key ⊢
  generalize (isWrite sel) = b6, ((sel.extractLsb' 0 6).extractLsb' 5 1 == 1) = b5,
    ((sel.extractLsb' 0 6).extractLsb' 4 1 == 1) = b4, ((sel.extractLsb' 0 6).extractLsb' 3 1 == 1) = b3,
    ((sel.extractLsb' 0 6).extractLsb' 2 1 == 1) = b2, ((sel.extractLsb' 0 6).extractLsb' 1 1 == 1) = b1,
    ((sel.extractLsb' 0 6).extractLsb' 0 1 == 1) = b0 at key ⊢
  cases b6 <;> cases b5 <;> cases b4 <;> cases b3 <;> cases b2 <;> cases b1 <;> cases b0 <;> first
    | exact .inr (.inr ⟨beq_eq_false_iff_ne.mp key.2.1, key.1, rfl, by simp, by simp⟩)
    | exact .inr (.inl ⟨beq_eq_false_iff_ne.mp key.2.1, key.1, _, beq_iff_eq.mp key.2.2, rfl⟩)
    | exact .inl ⟨beq_iff_eq.mp key.2.1, rfl⟩

/-- The instruction read from a command word is written as that word (R79). -/
theorem cmdWord_of_decodeCmdRow {c : Word} {i : Instr} (h : decodeCmdRow c = .ok i) : i.cmdWord? = some c := by
  unfold decodeCmdRow at h
  split at h
  case h_1 ho | h_2 ho | h_4 ho | h_5 ho =>
    obtain ⟨hc, rfl⟩ := ifClear_eq_ok.mp h; exact congrArg some (plain_word ho hc).symm
  case h_3 ho => obtain ⟨hc, rfl⟩ := ifClear_eq_ok.mp h; exact congrArg some (update_word ho hc).symm
  case h_6 ho | h_7 ho | h_8 ho => obtain ⟨hc, rfl⟩ := ifClear_eq_ok.mp h; exact congrArg some (slot_word ho hc).symm
  case h_9 => obtain rfl := Except.ok.inj h; rfl

/-- What a host transaction made while `rst` = 0 can do, by the two classes of writes that BUSY=1 discards. -/
theorem hostStep_writes {w : HostWord} {s t : State} (h : hostStep w s = .next t) :
    (∃ c, cmdWrite? w = some c ∧ isCmdOrMsgWrite w = true ∧
      ((s.BUSY = true ∧ t = discardWrite s) ∨ (s.BUSY = false ∧ ∃ e, e ≠ .ok ∧ t = raiseErr e s) ∨
        (s.BUSY = false ∧ ∃ x u, c = encodeCmd x ∧ runCmd x s = .ok u ∧ t = beginBusy u))) ∨
    (cmdWrite? w = none ∧ isCmdOrMsgWrite w = true ∧
      ((s.BUSY = true ∧ t = discardWrite s) ∨ (s.BUSY = false ∧ ∃ (sel : BitVec 7) (k : BitVec 4) (v : Word),
        w = .bus sel v ∧ sel.toNat = 0x50 + k.toNat ∧ t = setMsg k.toNat v s))) ∨
    (cmdWrite? w = none ∧ isCmdOrMsgWrite w = false ∧ t = { s with rdata := t.rdata, draws := t.draws }) := by
  cases w with
  | cmd c =>
    refine .inl ⟨c, rfl, rfl, ?_⟩
    obtain ⟨i, hd, hx⟩ | ⟨_, ⟨⟩, -, hx⟩ := hostStep_cases h
    · have hw := cmdWord_of_decodeCmdRow hd
      obtain ⟨-, h | h | ⟨hb, x, u, rfl | rfl, hu, e⟩⟩ | ⟨h, -⟩ := exec_cases hx
      · exact .inl h
      · exact .inr (.inl h)
      · refine .inr (.inr ⟨hb, x, u, ?_, hu, e⟩)
        cases x <;> exact (Option.some.inj hw).symm
      · cases hw
      · simp [h] at hw
    · exact execWrCmd_cases hx
  | bus sel v =>
    obtain ⟨rfl, hd⟩ | ⟨hs, hm, k, hk, hd⟩ | ⟨hs, hm, h1, h2, h3⟩ := decodeBus_cases sel v
    · exact .inl ⟨v, rfl, rfl, execWrCmd_cases h⟩
    · refine .inr (.inl ⟨by simp [cmdWrite?, hs], hm, ?_⟩)
      simp only [hostStep, decode, hd] at h
      obtain ⟨h | ⟨_, h⟩, -⟩ | ⟨-, -, ⟨_, _, -, hb, e⟩ | ⟨_, _, ⟨⟩, hb, e⟩ | ⟨h, -⟩⟩ := exec_cases h
      · cases h
      · cases h
      · exact .inl ⟨hb, e⟩
      · exact .inr ⟨hb, sel, k, v, rfl, hk, e⟩
      · exact absurd rfl (h _ _)
    · refine .inr (.inr ⟨by simp [cmdWrite?, hs], hm, ?_⟩)
      obtain ⟨h | ⟨w, h⟩, -⟩ | ⟨-, -, ⟨k, w, h, -⟩ | ⟨k, w, h, -⟩ | ⟨-, e⟩⟩ := exec_cases h
      · simp [h1] at h
      · exact absurd h (h2 w)
      · exact absurd h (h3 k w)
      · exact absurd h (h3 k w)
      · exact e

/-- What a step can do. -/
theorem step_cases {s t : State} (h : step s = .next t) :
    (s.pending = [] ∧ t = complete s) ∨
    ∃ e rest, s.pending = e :: rest ∧
      ((e = .complete ∧ t = complete { s with pending := rest }) ∨
        (e = .rst true ∧ t = hardwareReset { s with pending := rest }) ∨
        (e = .rst false ∧ t = { s with pending := rest, rst := false }) ∨
        (∃ w, e = .host w ∧ s.rst = true ∧ t = heldInReset w { s with pending := rest }) ∨
        ∃ w, e = .host w ∧ s.rst = false ∧ hostStep w { s with pending := rest } = .next t) := by
  obtain ⟨H, core, buf, BL, BH, FIN, slots, MSG, BUSY, OVR, ERR, rst, rdata, draws, pending⟩ := s
  cases pending with
  | nil => obtain rfl := Host.Outcome.next.inj h; exact .inl ⟨rfl, rfl⟩
  | cons e rest =>
    refine .inr ⟨e, rest, rfl, ?_⟩
    cases e with
    | complete => obtain rfl := Host.Outcome.next.inj h; exact .inl ⟨rfl, rfl⟩
    | rst level =>
      obtain rfl := Host.Outcome.next.inj h
      cases level
      · exact .inr (.inr (.inl ⟨rfl, rfl⟩))
      · exact .inr (.inl ⟨rfl, rfl⟩)
    | host w =>
      cases rst with
      | true => obtain rfl := Host.Outcome.next.inj h; exact .inr (.inr (.inr (.inl ⟨w, rfl, rfl, rfl⟩)))
      | false => exact .inr (.inr (.inr (.inr ⟨w, rfl, rfl, h⟩)))

theorem run_succ_of_core (M : Host.Core) {s t : M.State} (k : Nat) (h : M.step s = .next t) :
    M.run (k + 1) s = M.run k t := by
  rw [Host.Core.run, h]

/-- A run of one more step. -/
theorem run_succ {s t : State} (k : Nat) (h : step s = .next t) :
    Host.Core.run Sys2Proof.core (k + 1) s = Host.Core.run Sys2Proof.core k t :=
  run_succ_of_core Sys2Proof.core k h

end Sys2Proof.Machine
end

