-- ==== Sys2Proof/Tests/Slice0.lean ====
section
/-! SUPPORT. The model's own tests. Every expected value is copied from the spec (spec/95_test_vectors.md and the
examples of the numbered rules), and every word is written out from the encoding tables of spec/30_encoding.md. The
second half shows, for each obligation with hypotheses, a state and operands that meet them. -/

namespace Sys2Proof.Tests

-- One test after another: checked side by side they take far more memory.
set_option Elab.async false

open Sys2Proof.Machine

/-! ### States the tests start from (spec/95_test_vectors.md sections 2.6, 2.7) -/

/-- The window with "helloworld" loaded. -/
def helloWindow : Vector Word 16 :=
  (((Vector.replicate 16 0).set 0 0x6c6c6568).set 1 0x726f776f).set 2 0x0000646c

/-- L10: "helloworld" absorbed by UPDATE 10. -/
def live10 : State :=
  { State.reset with MSG := helloWindow, buf := fill State.reset.buf 0 10 (msgByte helloWindow), BL := 10, BH := 10 }

/-- F10: L10 finished. -/
def finished10 : State := { live10 with FIN := true, H := #v[0x8d035efc, 0x3270a538, 0xe7415408, 0xb01070fe] }

/-- S0: L10 saved to slot 0. -/
def saved10 : State := setSlot 0 ⟨true, IV, blockAt (byteOf live10.buf) 0, 10, 10⟩ live10

/-- The first 60 bytes of "1234567890" repeated, as the window holds them. -/
def digitWindow : Vector Word 16 :=
  #v[0x34333231, 0x38373635, 0x32313039, 0x36353433, 0x30393837, 0x34333231, 0x38373635, 0x32313039,
     0x36353433, 0x30393837, 0x34333231, 0x38373635, 0x32313039, 0x36353433, 0x30393837, 0]

/-- L60: those 60 bytes absorbed. -/
def live60 : State :=
  { State.reset with MSG := digitWindow, buf := fill State.reset.buf 0 60 (msgByte digitWindow), BL := 60, BH := 60 }

/-- RST with a command's BUSY window open. -/
def busyReset : State := { State.reset with BUSY := true }

/-- The next state of an outcome. -/
def nextOf : Host.Outcome State Fault Refusal → Option State
  | .next t => some t
  | .fault _ => none
  | .refused _ => none

/-- STATUS once the BUSY window is over. -/
def statusAfter (i : Instr) (s : State) : Option Word := (nextOf (exec i s)).map fun t => statusExact (complete t)

/-- What a read returns. -/
def readAfter (i : Instr) (s : State) : Option Word := (nextOf (exec i s)).map State.rdata

/-! ### Well-formedness -/

theorem test_wellFormed_reserved : (Instr.reservedOpcode 0xFFFFFFFF).wellFormed = true := by decide
/-- An ill-formed term: the word 0x00000003 is FINISH's (R71). -/
theorem test_illFormed_reserved : (Instr.reservedOpcode 0x00000003).wellFormed = false := by decide
theorem test_legal_len : (Instr.update 64).legal = true ∧ (Instr.update 65).legal = false := by decide
theorem test_legal_slot : (Instr.save 1).legal = true ∧ (Instr.drop 2).legal = false := by decide

/-! ### Decoding: words written bit by bit from R71 and R77 -/

theorem test_decode_plain :
    decode (.cmd 0b0000000000000000000000000000_0000#32) = .ok .nop ∧
    decode (.cmd 0b0000000000000000000000000000_0001#32) = .ok .reset ∧
    decode (.cmd 0b0000000000000000000000000000_0011#32) = .ok .finish ∧
    decode (.cmd 0b0000000000000000000000000000_0100#32) = .ok .clean := by decide

theorem test_decode_update :
    decode (.cmd 0b00000000000000000_0110111_0000_0010#32) = .ok (.update 55) ∧
    decode (.cmd 0b00000000000000000_1000001_0000_0010#32) = .ok (.update 65) := by decide

theorem test_decode_slots :
    decode (.cmd 0b000000000000_0001_000000000000_0101#32) = .ok (.save 1) ∧
    decode (.cmd 0b000000000000_0001_000000000000_0110#32) = .ok (.restore 1) ∧
    decode (.cmd 0b000000000000_1000_000000000000_0111#32) = .ok (.drop 8) := by decide

theorem test_decode_reserved :
    decode (.cmd 0b0000000000000000000000000000_1000#32) = .ok (.reservedOpcode 0x8) ∧
    decode (.cmd 0b1000000000000000000000000000_1111#32) = .ok (.reservedOpcode 0x8000000F) := by decide

theorem test_decode_reads :
    decode (.bus 0b0_000001#7 9) = .ok .rdStatus ∧ decode (.bus 0b0_000010#7 9) = .ok .rdBytesLo ∧
    decode (.bus 0b0_000011#7 9) = .ok .rdBytesHi ∧ decode (.bus 0b0_000110#7 9) = .ok (.rdDigest 2) ∧
    decode (.bus 0b0_000000#7 9) = .ok .rdCmd ∧ decode (.bus 0b0_011010#7 9) = .ok (.rdMsg 10) ∧
    decode (.bus 0b0_001101#7 9) = .ok (.rdReserved08 5) ∧ decode (.bus 0b0_110001#7 9) = .ok (.rdReserved20 17) := by
  decide

theorem test_decode_writes :
    decode (.bus 0b1_000000#7 9) = .ok (.wrCmd 9) ∧ decode (.bus 0b1_011010#7 9) = .ok (.wrMsg 10 9) ∧
    decode (.bus 0b1_000001#7 9) = .ok (.wrStatus 9) ∧ decode (.bus 0b1_000011#7 9) = .ok (.wrBytes 1 9) ∧
    decode (.bus 0b1_000111#7 9) = .ok (.wrDigest 3 9) ∧ decode (.bus 0b1_001110#7 9) = .ok (.wrReserved48 6 9) ∧
    decode (.bus 0b1_100010#7 9) = .ok (.wrReserved60 2 9) := by decide

/-- Section 2.5: the words the block's decoder accepts. -/
theorem test_decodeCmd_accepts :
    decodeCmd 2 0x00000000 = .ok .nop ∧ decodeCmd 2 0x00000001 = .ok .reset ∧
    decodeCmd 2 0x00000002 = .ok (.update 0) ∧ decodeCmd 2 0x00003702 = .ok (.update 55) ∧
    decodeCmd 2 0x00004002 = .ok (.update 64) ∧ decodeCmd 2 0x00000003 = .ok .finish ∧
    decodeCmd 2 0x00000004 = .ok .clean ∧ decodeCmd 2 0x00010005 = .ok (.save 1) ∧
    decodeCmd 2 0x00010006 = .ok (.restore 1) ∧ decodeCmd 2 0x00010007 = .ok (.drop 1) ∧
    decodeCmd 8 0x00070005 = .ok (.save 7) := by decide

/-- Section 2.5: the words it rejects, with the code of the first failed check. -/
theorem test_decodeCmd_rejects :
    decodeCmd 2 0x00004102 = .error .badLen ∧ decodeCmd 2 0x00007f02 = .error .badLen ∧
    decodeCmd 2 0x00020005 = .error .badSlot ∧ decodeCmd 2 0x000f0005 = .error .badSlot ∧
    decodeCmd 2 0x00030007 = .error .badSlot ∧ decodeCmd 8 0x00080005 = .error .badSlot ∧
    decodeCmd 2 0x00008002 = .error .badOp ∧ decodeCmd 2 0x00010002 = .error .badOp ∧
    decodeCmd 2 0x00000103 = .error .badOp ∧ decodeCmd 2 0x00100005 = .error .badOp ∧
    decodeCmd 2 0x80000008 = .error .badOp ∧ decodeCmd 2 0x00ff4102 = .error .badOp ∧
    decodeCmd 2 0x00120005 = .error .badOp ∧ decodeCmd 2 0xffffffff = .error .badOp := by decide

/-- The encodings of R79's examples. -/
theorem test_encode_examples :
    encodeCmd (.update 10) = 0x00000A02 ∧ encodeCmd (.update 64) = 0x00004002 ∧
    encodeCmd (.save 1) = 0x00010005 ∧ encodeCmd (.restore 0) = 0x00000006 := by decide

/-- No word belongs to two rows of the table: rows of one format differ in a bit both fix. -/
theorem test_rows_disjoint :
    opcodeTable.Pairwise fun r t => r.cmdFormat ≠ t.cmdFormat ∨ (r.pattern ^^^ t.pattern) &&& (r.mask &&& t.mask) ≠ 0 := by
  decide

theorem test_table_words :
    opcodeTable.length = 24 ∧ decodeTableWord 32 0x00000A02 = some (.update 10) ∧
    decodeTableWord 32 0x00000008 = some (.reservedOpcode 8) ∧ decodeTableWord 8 0x40 = some (.wrCmd 0) ∧
    decodeTableWord 40 0x0000000350 = some (.wrMsg 0 3) ∧ decodeTableWord 32 0x00000103 = none := by decide

/-- A table word placed after reset is what the first step runs. -/
theorem test_first_step :
    step (State.reset.withFetchWord 32 0x00010005) = exec (.save 1) State.reset := by rfl

/-! ### The compression core -/

/-- Section 2.3. -/
theorem test_rotl32 :
    rotl32 0x80000000 1 = 0x00000001 ∧ rotl32 0x00000001 31 = 0x80000000 ∧
    rotl32 0x12345678 23 = 0x3c091a2b ∧ rotl32 0xd76aa4f7 7 = 0xb5527beb := by decide

/-- Section 2.1. -/
theorem test_round_functions :
    fF 0x12345678 0x9abcdef0 0xdeadbeef = 0xdebdfef7 ∧ fG 0x12345678 0x9abcdef0 0xdeadbeef = 0x12345678 ∧
    fH 0x12345678 0x9abcdef0 0xdeadbeef = 0x56253667 ∧ fI 0x12345678 0x9abcdef0 0xdeadbeef = 0xa9ca8988 := by decide

/-- Section 2.2. -/
theorem test_tables :
    [0, 15, 16, 17, 31, 32, 33, 47, 48, 49, 63].map schedIndex = [0, 15, 1, 6, 12, 5, 8, 2, 0, 7, 9] ∧
    [0, 1, 15, 16, 31, 32, 47, 48, 63].map rotationAmount = [7, 12, 22, 5, 20, 4, 23, 6, 21] ∧
    [0, 15, 16, 31, 32, 47, 48, 63].map sineConstant =
      [0xd76aa478, 0x49b40821, 0xf61e2562, 0x8d2a4c8a, 0xfffa3942, 0xc4ac5665, 0xf4292244, 0xeb86d391] := by decide

/-- R105: within each group of 16 rounds the index is a permutation of 0 to 15. -/
theorem test_schedIndex_permutation :
    ∀ q, q < 4 → ∀ g, g < 16 → (List.range 16).any (fun i => schedIndex (16 * q + i) == g) = true := by decide

/-- Section 3, round 0 of the padded empty message. -/
theorem test_round0 :
    roundStep ((Vector.replicate 16 0).set 0 0x80) 0 ⟨0x67452301, 0xefcdab89, 0x98badcfe, 0x10325476⟩ =
      ⟨0x10325476, 0xa5202774, 0xefcdab89, 0x98badcfe⟩ := by decide

/-- Section 3, round 41, which reads W[0]. -/
theorem test_round41 :
    roundStep ((Vector.replicate 16 0).set 0 0x80) 41 ⟨0xabc34e16, 0x4497169d, 0xc5dc8c15, 0x91ca4cb7⟩ =
      ⟨0x91ca4cb7, 0x76fd93d4, 0x4497169d, 0xc5dc8c15⟩ := by decide

/-- Section 2.4, row 4. -/
theorem test_compress_counting :
    compress IV (blockAt (fun j => BitVec.ofNat 8 j) 0) = #v[0x9144d9ca, 0xd901e4c9, 0x72fc5b38, 0x625ff51e] := by
  decide +kernel

/-- Section 2.4, row 5. -/
theorem test_compress_zero :
    compress (Vector.replicate 4 0) (Vector.replicate 64 0) = #v[0xf7cd1c97, 0xa5483681, 0x2b68d832, 0xf90ca639] := by
  decide +kernel

/-! ### Commands (section 2.6) -/

/-- R141: the example, and OVR is kept. -/
theorem test_nop : statusAfter .nop { live10 with ERR := .useAfterFinish, OVR := true } = some 0x00000a04 := by decide
theorem test_reset : statusAfter .reset finished10 = some 0x00000000 := by decide

/-- L10, UPDATE 54: the window past byte 9 is zero. -/
theorem test_update54 :
    (nextOf (exec (.update 54) live10)).map (fun t => (wordOf t.H 0, t.BL, t.BH)) = some (0x801ee99d, 0, 64) := by
  decide +kernel

/-- Section 2.11: the byte counter wraps. -/
theorem test_update_wraps :
    (nextOf (exec (.update 1) { State.reset with BL := 63, BH := 0xffffffffffffffff })).map (fun t => (t.BL, t.BH)) =
      some (0, 0) := by decide +kernel

/-- L60, FINISH: two compressions. -/
theorem test_finish60 :
    (nextOf (exec .finish live60)).map (fun t => (t.H, statusExact (complete t))) =
      some (#v[0x3749b5c5, 0xc36c827c, 0xb0182471, 0x7e41fc64], 0x00003c02) := by decide +kernel

/-- R145: FINISH after "helloworld". -/
theorem test_finish10 :
    (nextOf (exec .finish live10)).map (fun t => (t.H, byteOf t.buf 10, byteOf t.buf 56)) =
      some (#v[0x8d035efc, 0x3270a538, 0xe7415408, 0xb01070fe], 0x80, 0x50) := by decide +kernel

/-- S0, CLEAN: the slots are not touched. -/
theorem test_clean : statusAfter .clean saved10 = some 0x00010000 := by decide
theorem test_save : statusAfter (.save 1) live10 = some 0x00020a00 := by decide
theorem test_save_finished : statusAfter (.save 0) finished10 = some 0x00000a22 := by decide

/-- S0, RESET, RESTORE 0. -/
theorem test_restore :
    (nextOf (exec (.restore 0) { saved10 with H := #v[1, 2, 3, 4], BL := 0, BH := 0, FIN := true })).map
      (fun t => (t.H, t.FIN, statusExact (complete t))) = some (IV, false, 0x00010a00) := by decide
theorem test_restore_empty : statusAfter (.restore 0) State.reset = some 0x00000060 := by decide
theorem test_drop : statusAfter (.drop 0) saved10 = some 0x00000a00 := by decide
theorem test_drop_slot2 : statusAfter (.drop 2) saved10 = some 0x00010a50 := by decide
theorem test_reservedOpcode : statusAfter (.reservedOpcode 0x80000008) live10 = some 0x00000a30 := by decide

/-- Section 2.10: rows of the length field. -/
theorem test_length_field :
    (List.range 8).map (lengthByte 0x100000005) = [0x28, 0, 0, 0, 0x08, 0, 0, 0] ∧
    (List.range 8).map (lengthByte 0x1fffffffffffffff) = [0xf8, 0xff, 0xff, 0xff, 0xff, 0xff, 0xff, 0xff] ∧
    (List.range 8).map (lengthByte 0x2000000000000007) = [0x38, 0, 0, 0, 0, 0, 0, 0] := by decide

/-- Section 2.10: the padded length at 55 and 56. -/
theorem test_paddedLength : paddedLength 0x37 = 64 ∧ paddedLength 0x38 = 128 ∧ paddedLength 0x40 = 64 := by decide

/-- R146: z for the boundary lengths. -/
theorem test_zeroCount : [55, 56, 63, 64, 65].map zeroCount = [0, 63, 56, 55, 54] := by decide

/-! ### Bus transactions (sections 2.7, 2.8, 2.9) -/

theorem test_wrCmd_precedence : statusAfter (.wrCmd 0x00004102) finished10 = some 0x00000a42 := by decide
theorem test_wrCmd_busy :
    (nextOf (exec (.wrCmd 0x00000001) { finished10 with BUSY := true })).map (fun t => (t.OVR, t.FIN)) =
      some (true, true) := by decide
theorem test_rdStatus : readAfter .rdStatus saved10 = some 0x00010a00 := by decide
theorem test_rdStatus_error : readAfter .rdStatus { finished10 with ERR := .emptySlot } = some 0x00000a62 := by decide
theorem test_rdBytesLo : readAfter .rdBytesLo { live10 with BH := 0x0000000100000007 } = some 0x00000007 := by decide
theorem test_rdBytesHi : readAfter .rdBytesHi { live10 with BH := 0x0000000100000007 } = some 0x00000001 := by decide
theorem test_rdDigest : readAfter (.rdDigest 3) finished10 = some 0xb01070fe := by decide
theorem test_rdDigest_live : readAfter (.rdDigest 0) live10 = some 0x00000000 := by decide

/-- Section 2.9: lane 0 of the word is the first byte. -/
theorem test_wrMsg :
    (nextOf (exec (.wrMsg 0 0x44332211) State.reset)).map (fun t => (List.range 5).map (msgByte t.MSG)) =
      some [0x11, 0x22, 0x33, 0x44, 0x00] := by decide
theorem test_wrMsg_busy :
    (nextOf (exec (.wrMsg 0 0x22222222) { live10 with BUSY := true })).map (fun t => (wordOf t.MSG 0, t.OVR)) =
      some (0x6c6c6568, true) := by decide
theorem test_zero_reads :
    [Instr.rdCmd, .rdMsg 0, .rdReserved08 0, .rdReserved20 31].map (readAfter · finished10) =
      [some 0, some 0, some 0, some 0] := by decide
theorem test_ignored_writes :
    [Instr.wrStatus 5, .wrBytes 0 5, .wrDigest 0 5, .wrReserved48 0 5, .wrReserved60 0 5].map
      (fun i => (nextOf (exec i busyReset)).map State.OVR) = List.replicate 5 (some false) := by decide

/-- R230: the reset input abandons a BUSY window, and a transaction made while it is high is ignored. -/
theorem test_rst :
    nextOf (step { finished10 with BUSY := true, pending := [.rst true] }) = some { State.reset with rst := true } := by
  rfl
theorem test_rst_ignores :
    nextOf (step { State.reset with rst := true, pending := [.host (.cmd 0x5)] }) =
      some { State.reset with rst := true } := by rfl

/-! ### Host spellings (R79 to R81; section 4, P1) -/

theorem test_pseudo :
    issueCmd (.update 10) = .cmd 0x00000a02 ∧ wr (.MSG 2) 0x0000646c = .bus 0x52 0x0000646c ∧
    rd (.DIGEST 3) = .bus 0x07 0 ∧ loadMsg (fun _ => 0) [0x68, 0x65, 0x6c, 0x6c, 0x6f] =
      [.bus 0x50 0x6c6c6568, .bus 0x51 0x0000006f] ∧ commandText (.update 10) = "UPDATE 10" := by decide

/-- R80: the two primitives by byte offset, at both ends of the reserved ranges. -/
theorem test_offsets :
    wrOff 0x20 7 = .bus 0x48 7 ∧ wrOff 0xFC 7 = .bus 0x7F 7 ∧ rdOff 0x3C = .bus 0x0F 0 ∧ rdOff 0x80 = .bus 0x20 0 := by
  decide

/-- R81: DIGEST. -/
theorem test_readDigest :
    readDigest 2 = [.cmd 0x3, .bus 0x01 0, .bus 0x01 0, .bus 0x04 0, .bus 0x05 0, .bus 0x06 0, .bus 0x07 0] := by decide

/-- R54: the digest of the empty message in byte order. -/
theorem test_digestBytes :
    (digestBytes #v[0xd98c1dd4, 0x04b2008f, 0x980980e9, 0x7e42f8ec]).take 6 = [0xd4, 0x1d, 0x8c, 0xd9, 0x8f, 0x00] := by
  decide

/-! ### Witnesses: a state and operands that meet each obligation's hypotheses, at the boundary values of its clauses -/

/-- The ten bytes of "helloworld". -/
def hello : List Byte := [0x68, 0x65, 0x6c, 0x6c, 0x6f, 0x77, 0x6f, 0x72, 0x6c, 0x64]

theorem live10_absorbed : AbsorbedStream hello live10 := by
  refine ⟨rfl, rfl, rfl, ?_⟩
  show ∀ j, j < 10 → _
  decide

theorem slotOf_saved10 (k : Nat) :
    slotOf saved10 k = if k = 0 then ⟨true, IV, blockAt (byteOf live10.buf) 0, 10, 10⟩ else Slot.empty := by
  match k with
  | 0 => rfl
  | 1 => rfl
  | k + 2 => exact congrArg (Option.getD · Slot.empty) (Vector.getElem?_eq_none (Nat.le_add_left 2 k))

theorem saved10_inv : BlockInv { saved10 with BUSY := true } where
  cursor := by decide
  slotCursor k := by
    show (slotOf saved10 k).valid = true → CursorOk (slotOf saved10 k).BL (slotOf saved10 k).BH
    rw [slotOf_saved10]; split <;> decide
  slotEmpty k := by
    show (slotOf saved10 k).valid = false → slotOf saved10 k = Slot.empty
    rw [slotOf_saved10]; split
    · decide
    · exact fun _ => rfl
  busyOk := by decide
  held := by decide

/-- L10 with other hidden state: the core's working registers and the buffer past BL. -/
def live10Hidden : State := { live10 with core := { live10.core with a := 1 }, buf := fill live10.buf 10 128 fun _ => 0xff }

theorem live10_sameVisible : SameVisible live10 live10Hidden where
  H := rfl
  BL := rfl
  BH := rfl
  FIN := rfl
  MSG := rfl
  BUSY := rfl
  OVR := rfl
  ERR := rfl
  rst := rfl
  rdata := rfl
  draws := rfl
  pending := rfl
  buf := by show ∀ j, j < 10 → _; decide
  slots k := ⟨rfl, fun _ => ⟨rfl, rfl, rfl, fun _ _ => rfl⟩⟩

theorem witness_DecodeInvertsEncode :
    (Instr.update 127).wellFormed = true ∧ (Instr.reservedOpcode 0xFFFFFFF8).wellFormed = true ∧
    (Instr.wrReserved60 31 0xFFFFFFFF).wellFormed = true := by decide
theorem witness_EncodeInvertsDecode :
    decode (.cmd 0x000f0007) = .ok (.drop 15) ∧ decode (.bus 0x5F 7) = .ok (.wrMsg 15 7) ∧
    decode (.bus 0x3F 7) = .ok (.rdReserved20 31) := by decide
theorem witness_CommandIsWriteOfItsWord :
    ((Instr.update 127).wellFormed = true ∧ (Instr.update 127).cmdWord? = some 0x00007F02) ∧
    ((Instr.save 15).wellFormed = true ∧ (Instr.save 15).cmdWord? = some 0x000F0005) := by decide
theorem witness_StepRunsDecodedInstruction :
    ∃ (s : State) (w : HostWord) (rest : List Event) (i : Instr),
      s.pending = .host w :: rest ∧ s.rst = false ∧ decode w = .ok i :=
  ⟨{ live10 with pending := [.host (.cmd 0x3), .complete] }, .cmd 0x3, [.complete], .finish, rfl, rfl, by decide⟩
theorem witness_PlacedTableWordRuns :
    decodeTableWord 32 0x000f0007 = some (.drop 15) ∧ decodeTableWord 8 0x7F = some (.wrReserved60 31 0) := by decide
theorem witness_MalformedCommandWordIsRejected :
    ∃ (s : State) (c : Word) (rest : List Event) (e : ErrCode),
      s.pending = .host (.cmd c) :: rest ∧ s.rst = false ∧ decode (.cmd c) = .error e :=
  ⟨{ live10 with pending := [.host (.cmd 0x00000103)] }, 0x00000103, [], .badOp, rfl, rfl, by decide⟩
theorem witness_CompleteStepOnlyClearsBusy :
    (∃ (s : State) (rest : List Event), s.BUSY = true ∧ s.pending = .complete :: rest) ∧
    ∃ s : State, s.BUSY = true ∧ s.pending = [] :=
  ⟨⟨{ busyReset with pending := [.complete] }, [], rfl, rfl⟩, busyReset, rfl, rfl⟩
theorem witness_HardwareResetLoadsResetValues :
    ∃ (s : State) (rest : List Event), s.BUSY = true ∧ s.pending = .rst true :: rest :=
  ⟨{ finished10 with BUSY := true, pending := [.rst true, .complete] }, [.complete], rfl, rfl⟩
theorem witness_ResetInputHoldsTheBlock :
    (∃ (s : State) (w : HostWord) (rest : List Event), isRead w = true ∧ s.rst = true ∧ s.pending = .host w :: rest) ∧
    (∃ (s : State) (w : HostWord) (rest : List Event), isRead w = false ∧ s.rst = true ∧ s.pending = .host w :: rest) ∧
    ∃ (s : State) (rest : List Event), s.pending = .rst false :: rest :=
  ⟨⟨{ live10 with rst := true, pending := [.host (.bus 0x01 0)] }, .bus 0x01 0, [], by decide, rfl, rfl⟩,
    ⟨{ live10 with rst := true, pending := [.host (.cmd 0x3)] }, .cmd 0x3, [], by decide, rfl, rfl⟩,
    { live10 with rst := true, pending := [.rst false] }, [], rfl⟩
theorem witness_EveryStepKeepsTheInvariant : ∃ s t : State, BlockInv s ∧ step s = .next t :=
  ⟨_, _, saved10_inv, rfl⟩
theorem witness_HiddenStateIsNeverObserved :
    ∃ s t s' t' : State, s ≠ t ∧ SameVisible s t ∧ step s = .next s' ∧ step t = .next t' :=
  ⟨live10, live10Hidden, _, _, fun h => absurd (congrArg (fun x : State => x.core.a) h) (by decide), live10_sameVisible,
    rfl, rfl⟩

/-- One word and state for each clause, in the order of R203. -/
theorem witness_FirstCauseInPriorityOrderWins :
    busyReset.BUSY = true ∧ State.reset.BUSY = false ∧
    (8 ≤ (0x80000008#32).toNat % 16) ∧
    (¬ 8 ≤ (0x00124107#32).toNat % 16 ∧ ReservedBitSet 0x00124107) ∧
    (¬ ReservedBitSet 0x00004102 ∧ (0x00004102#32).toNat / 2 ^ 8 % 128 = 65) ∧
    (¬ ReservedBitSet 0x00020005 ∧ (0x00020005#32).toNat / 2 ^ 16 % 16 = Config.numSlots) ∧
    (¬ ReservedBitSet 0x00004002 ∧ (0x00004002#32).toNat / 2 ^ 8 % 128 = 64 ∧ finished10.FIN = true) ∧
    (¬ ReservedBitSet 0x00010005 ∧ (0x00010005#32).toNat / 2 ^ 16 % 16 = 1 ∧ finished10.FIN = true) ∧
    (¬ ReservedBitSet 0x00010006 ∧ (slotOf saved10 1).valid = false) ∧
    (¬ ReservedBitSet 0x00000006 ∧ (slotOf saved10 0).valid = true) := by
  unfold ReservedBitSet; decide
theorem witness_RejectedCommandChangesOnlyErr :
    (∃ t, exec (.update 5) finished10 = .next t ∧ (Instr.update 5).cmdWord?.isSome = true ∧ finished10.BUSY = false ∧
      t.ERR ≠ .ok) ∧
    (∃ t, exec (.wrCmd 0x103) finished10 = .next t ∧ finished10.BUSY = false ∧ t.ERR ≠ .ok) ∧
    (∃ t, exec (.update 5) busyReset = .next t ∧ busyReset.BUSY = true) ∧
    ∃ t, exec .rdStatus live10 = .next t ∧ Instr.rdStatus.cmdWord? = none ∧ ∀ v, Instr.rdStatus ≠ .wrCmd v :=
  ⟨⟨_, rfl, rfl, rfl, by decide⟩, ⟨_, rfl, rfl, by decide⟩, ⟨_, rfl, rfl⟩, _, rfl, rfl, by simp⟩
theorem witness_WritesWhileBusyOnlySetOvr :
    busyReset.BUSY = true ∧ (Instr.reservedOpcode 0xF).cmdWord? = some 0xF ∧ Instr.nop.cmdWord? = some 0 := by decide
theorem witness_OvrIsStickyAndSetByDiscards :
    (∃ s t : State, step s = .next t ∧ t.OVR = true ∧ s.OVR = false) ∧
    (∃ s t : State, step s = .next t ∧ s.OVR = true ∧ t.OVR = false ∧ s.pending = [.rst true]) ∧
    (∃ s t : State, step s = .next t ∧ s.OVR = true ∧ t.OVR = false ∧ s.pending = [.host (.cmd 0x1)]) ∧
    ∃ s t : State, step s = .next t ∧ s.OVR = true ∧ t.OVR = false ∧ s.pending = [.host (.bus 0x40 0x4)] :=
  ⟨⟨{ busyReset with pending := [.host (.bus 0x5F 0)] }, _, rfl, by decide, by decide⟩,
    ⟨{ live10 with OVR := true, pending := [.rst true] }, _, rfl, rfl, by decide, rfl⟩,
    ⟨{ live10 with OVR := true, pending := [.host (.cmd 0x1)] }, _, rfl, rfl, by decide, rfl⟩,
    { live10 with OVR := true, pending := [.host (.bus 0x40 0x4)] }, _, rfl, rfl, by decide, rfl⟩
theorem witness_FinishedFlagHasOnlyItsWriters :
    (∃ s t : State, step s = .next t ∧ s.FIN ≠ t.FIN ∧ t.FIN = true) ∧
    ∃ s t : State, step s = .next t ∧ s.FIN ≠ t.FIN ∧ t.FIN = false :=
  ⟨⟨{ live10 with pending := [.host (.cmd 0x3)] }, _, rfl, by decide +kernel, by decide +kernel⟩,
    { finished10 with pending := [.host (.cmd 0x4)] }, _, rfl, by decide, by decide⟩
theorem witness_HashStateHasOnlyItsWriters :
    (∃ s t : State, step s = .next t ∧ s.H ≠ t.H ∧ s.pending = [.rst true]) ∧
    (∃ s t : State, step s = .next t ∧ s.H ≠ t.H ∧ s.pending = [.host (.cmd 0x1)]) ∧
    ∃ s t : State, step s = .next t ∧ s.H ≠ t.H ∧ s.pending = [.host (.cmd 0x3602)] :=
  ⟨⟨{ finished10 with pending := [.rst true] }, _, rfl, by decide, rfl⟩,
    ⟨{ finished10 with pending := [.host (.cmd 0x1)] }, _, rfl, by decide, rfl⟩,
    { live10 with pending := [.host (.cmd 0x3602)] }, _, rfl, by decide +kernel, rfl⟩
theorem witness_DigestLastsUntilResetCleanOrRestore :
    finished10.FIN = true ∧ finished10.BUSY = false ∧ (∃ t, exec .reset finished10 = .next t) ∧
    (∃ t, exec (.restore 0) { saved10 with FIN := true } = .next t ∧ t.ERR = .ok) ∧
    (∃ t, exec (.wrCmd 0x6) { saved10 with FIN := true } = .next t ∧ t.ERR = .ok ∧ 0x6 = encodeCmd (.restore 0)) ∧
    ∃ t, exec (.restore 1) finished10 = .next t ∧ t.ERR ≠ .ok :=
  ⟨rfl, rfl, ⟨_, rfl⟩, ⟨_, rfl, by decide⟩, ⟨_, rfl, by decide, by decide⟩, _, rfl, by decide⟩
/-- Each writer: the slots by reset, SAVE and DROP, the window by reset, MSG15 and CLEAN. -/
theorem witness_SlotsAndWindowHaveOnlyTheirWriters :
    (∃ s t : State, step s = .next t ∧ slotOf t 0 ≠ slotOf s 0 ∧ s.pending = [.rst true]) ∧
    (∃ s t : State, step s = .next t ∧ slotOf t 1 ≠ slotOf s 1 ∧ s.pending = [.host (.cmd 0x00010005)]) ∧
    (∃ s t : State, step s = .next t ∧ slotOf t 0 ≠ slotOf s 0 ∧ s.pending = [.host (.bus 0x40 0x00000007)]) ∧
    (∃ s t : State, step s = .next t ∧ wordOf t.MSG 0 ≠ wordOf s.MSG 0 ∧ s.pending = [.rst true]) ∧
    (∃ s t : State, step s = .next t ∧ wordOf t.MSG 15 ≠ wordOf s.MSG 15 ∧ s.pending = [.host (.bus 0x5F 7)]) ∧
    ∃ s t : State, step s = .next t ∧ wordOf t.MSG 0 ≠ wordOf s.MSG 0 ∧ s.pending = [.host (.cmd 0x00000004)] :=
  ⟨⟨{ saved10 with pending := [.rst true] }, _, rfl, by decide, rfl⟩,
    ⟨{ live10 with pending := [.host (.cmd 0x00010005)] }, _, rfl, by decide, rfl⟩,
    ⟨{ saved10 with pending := [.host (.bus 0x40 0x00000007)] }, _, rfl, by decide, rfl⟩,
    ⟨{ live10 with pending := [.rst true] }, _, rfl, by decide, rfl⟩,
    ⟨{ live10 with pending := [.host (.bus 0x5F 7)] }, _, rfl, by decide, rfl⟩,
    { live10 with pending := [.host (.cmd 0x00000004)] }, _, rfl, by decide, rfl⟩
theorem witness_ReadsHaveNoSideEffect :
    (∃ t, isRead (encode .rdStatus) = true ∧ exec .rdStatus busyReset = .next t) ∧
    ∃ t, isRead (encode (.rdReserved20 31)) = true ∧ exec (.rdReserved20 31) busyReset = .next t :=
  ⟨⟨_, by decide, rfl⟩, _, by decide, rfl⟩
theorem witness_NopSetsErrToOkAndBeginsBusy : ∃ s : State, s.BUSY = false ∧ s.OVR = true ∧ s.FIN = true :=
  ⟨{ finished10 with OVR := true }, rfl, rfl, rfl⟩
theorem witness_ResetReinitialisesTheHasher : finished10.BUSY = false := rfl
theorem witness_CleanWipesAndReinitialises : saved10.BUSY = false := rfl

/-- BL + n at 63, 64 and 74 with a partial block, and a whole window with nothing buffered. -/
theorem witness_UpdateAbsorbsTheWindow :
    live10.BUSY = false ∧ live10.FIN = false ∧ live10.BL.toNat + (53#7).toNat = 63 ∧
    live10.BL.toNat + (54#7).toNat = 64 ∧ (64#7).toNat ≤ 64 ∧ live10.BL.toNat + (64#7).toNat = 74 ∧
    State.reset.BUSY = false ∧ State.reset.FIN = false ∧ State.reset.BL.toNat = 0 := by decide
theorem witness_UpdateMatchesByteSerialAbsorption :
    live60.BUSY = false ∧ live60.FIN = false ∧ (64#7).toNat ≤ 64 ∧ (0#7).toNat ≤ 64 := by decide
theorem witness_SplittingAnUpdateChangesNothing :
    ∃ (a b : Nat) (s t u v : State) (window : Vector Word 16),
      s.BUSY = false ∧ s.FIN = false ∧ a + b = 64 ∧ 0 < b ∧ (∀ p, p < b → msgByte window p = msgByte s.MSG (a + p)) ∧
      exec (.update (BitVec.ofNat 7 (a + b))) s = .next t ∧ exec (.update (BitVec.ofNat 7 a)) s = .next u ∧
      exec (.update (BitVec.ofNat 7 b)) { u with BUSY := false, MSG := window } = .next v :=
  ⟨60, 4, live60, _, _, _, Vector.replicate 16 0, rfl, rfl, rfl, by decide, by decide, rfl, rfl, rfl⟩
theorem witness_UpdateExtendsTheAbsorbedStream :
    live10.BUSY = false ∧ live10.FIN = false ∧ (64#7).toNat ≤ 64 ∧ AbsorbedStream hello live10 :=
  ⟨rfl, rfl, by decide, live10_absorbed⟩
theorem witness_UpdateIsRejectedByItsErrors :
    finished10.BUSY = false ∧ finished10.FIN = true ∧ (0#7).toNat ≤ 64 ∧ (64#7).toNat ≤ 64 ∧ 64 < (65#7).toNat := by
  decide

/-- BL at 55, the last one-block value, and at 56. -/
theorem witness_FinishPadsAndCompresses :
    (∃ s : State, s.BUSY = false ∧ s.FIN = false ∧ s.BL.toNat = 55 ∧ CursorOk s.BL s.BH) ∧
    ∃ s : State, s.BUSY = false ∧ s.FIN = false ∧ s.BL.toNat = 56 ∧ CursorOk s.BL s.BH :=
  ⟨⟨{ live60 with BL := 55, BH := 119 }, rfl, rfl, rfl, rfl⟩, { live60 with BL := 56, BH := 120 }, rfl, rfl, rfl, rfl⟩
theorem witness_FinishAgainKeepsTheDigest : finished10.BUSY = false ∧ finished10.FIN = true := ⟨rfl, rfl⟩
theorem witness_FinishYieldsTheDigestOfTheStream :
    live10.BUSY = false ∧ live10.FIN = false ∧ AbsorbedStream hello live10 := ⟨rfl, rfl, live10_absorbed⟩
theorem witness_SaveTakesASnapshot :
    live10.BUSY = false ∧ live10.FIN = false ∧ (1#4).toNat < Config.numSlots ∧ (0#4).toNat < Config.numSlots := by decide
theorem witness_RestoreReloadsTheSlot :
    { saved10 with FIN := true }.BUSY = false ∧ (0#4).toNat < Config.numSlots ∧
    (slotOf { saved10 with FIN := true } (0#4).toNat).valid = true := by decide
theorem witness_DropClearsTheSlot : saved10.BUSY = false ∧ (1#4).toNat < Config.numSlots := by decide
theorem witness_SlotCommandsAreRejectedByTheirErrors :
    finished10.BUSY = false ∧ Config.numSlots ≤ (2#4).toNat ∧ ((1#4).toNat < Config.numSlots ∧ finished10.FIN = true) ∧
    ((1#4).toNat < Config.numSlots ∧ (slotOf finished10 (1#4).toNat).valid = false) := by decide
theorem witness_RestoreBringsBackTheSavedStream :
    ∃ (k : BitVec 4) (m : List Byte) (s t u : State),
      s.BUSY = false ∧ s.FIN = false ∧ k.toNat < Config.numSlots ∧ AbsorbedStream m s ∧
      exec (.save k) s = .next t ∧ u.BUSY = false ∧ u.FIN = true ∧ slotOf u k.toNat = slotOf t k.toNat :=
  ⟨1, hello, live10, _, setSlot 1 (snapshot live10) finished10, rfl, rfl, by decide, live10_absorbed, rfl, rfl, rfl, rfl⟩
theorem witness_ReservedOpcodeIsRejected :
    live10.BUSY = false ∧ (Instr.reservedOpcode 0x8).wellFormed = true ∧
    (Instr.reservedOpcode 0xFFFFFFFF).wellFormed = true := by decide
theorem witness_WriteCmdRunsTheDecodedCommand :
    finished10.BUSY = false ∧ decodeCmd Config.numSlots 0x00004102 = .error .badLen ∧
    (decodeCmd Config.numSlots 0x00004002 = .ok (.update 64) ∧
      runCmd (.update 64) finished10 = .error .useAfterFinish) ∧
    ∃ t, decodeCmd Config.numSlots 0x00000001 = .ok .reset ∧ runCmd .reset finished10 = .ok t :=
  ⟨rfl, by decide, ⟨by decide, rfl⟩, _, by decide, rfl⟩
theorem witness_WriteMsgPlacesFourMessageBytes : finished10.BUSY = false ∧ (15#4).toNat = 15 := by decide
theorem witness_StatusReadReturnsEveryField : saved10.BUSY = false := rfl
theorem witness_StatusReadWhileBusyIsExactInThreeFields : busyReset.BUSY = true := rfl
theorem witness_ByteCountReadsReturnItsHalves : live10.BUSY = false ∧ busyReset.BUSY = true := ⟨rfl, rfl⟩
theorem witness_DigestReadIsGatedByFinAndBusy :
    (finished10.FIN = true ∧ finished10.BUSY = false) ∧ live10.FIN = false ∧ busyReset.BUSY = true :=
  ⟨⟨rfl, rfl⟩, rfl, rfl⟩
theorem witness_OtherTransactionsReadZeroOrAreIgnored :
    (0x00#7).toNat = 0x00 ∧ (0x08 ≤ (0x08#7).toNat ∧ (0x3F#7).toNat ≤ 0x3F) ∧
    (0x41 ≤ (0x41#7).toNat ∧ (0x4F#7).toNat ≤ 0x4F) ∧ 0x60 ≤ (0x60#7).toNat := by decide

end Sys2Proof.Tests
end

section
/-! How a step takes an event from the queue and hands a host transaction to the decoder: 00_scope.md R5. -/

namespace Sys2Proof.Machine

/-- The queue is taken from its head. -/
theorem fetch_of_pending_cons {s : State} {e : Event} {rest : List Event} (hp : s.pending = e :: rest) :
    fetch s = some (e, { s with pending := rest }) := by
  simp only [fetch, hp]

/-- While `rst` = 0 a transaction reaches the block (R230 holds it back only while `rst` = 1). -/
theorem step_of_pending_host {s : State} {w : HostWord} {rest : List Event} (hp : s.pending = .host w :: rest)
    (hr : s.rst = false) : step s = hostStep w { s with pending := rest } := by
  simp [step, fetch_of_pending_cons hp, hr]

theorem hostStep_of_decode_ok {w : HostWord} {i : Instr} (hd : decode w = .ok i) (s : State) :
    hostStep w s = exec i s := by
  simp only [hostStep, hd]

/-- Settles O9: the step hands the transaction to the block, and the block runs what the decoder reads. -/
theorem stepRunsDecodedInstruction : Obligations.StepRunsDecodedInstruction := by
  intro s w rest i hp hr hd
  calc step s = hostStep w { s with pending := rest } := step_of_pending_host hp hr
    _ = exec i { s with pending := rest } := hostStep_of_decode_ok hd _

end Sys2Proof.Machine
end

section
/-! The step for each event the queue can bring, and what hardware reset leaves (O15): 10_state.md R36,
70_reset_and_hazards.md R230, R240. -/

namespace Sys2Proof.Machine

/-- With nothing queued the core takes its complete step (notes/assumptions/2.md). -/
theorem step_of_pending_nil {s : State} (hp : s.pending = []) : step s = .next (complete s) := by
  simp only [step, fetch, hp]

theorem step_of_pending_complete {s : State} {rest : List Event} (hp : s.pending = .complete :: rest) :
    step s = .next (complete { s with pending := rest }) := by
  simp only [step, fetch_of_pending_cons hp]

theorem step_of_pending_rst {s : State} {level : Bool} {rest : List Event} (hp : s.pending = .rst level :: rest) :
    step s = .next (driveRst level { s with pending := rest }) := by
  simp only [step, fetch_of_pending_cons hp]

theorem step_of_pending_host_held {s : State} {w : HostWord} {rest : List Event} (hp : s.pending = .host w :: rest)
    (hr : s.rst = true) : step s = .next (heldInReset w { s with pending := rest }) := by
  simp only [step, fetch_of_pending_cons hp, hr, if_true]

/-- Where the slots have their reset value, each of them is empty (R27). -/
theorem slotOf_eq_empty_of_slots {s : State} (h : s.slots = Vector.replicate Config.numSlots Slot.empty) (k : Nat) :
    slotOf s k = Slot.empty := by
  by_cases hk : k < Config.numSlots
  · simp [slotOf, h, hk]
  · exact slotOf_of_le s k (Nat.le_of_not_lt hk)

@[simp] theorem slotOf_hardwareReset (s : State) (k : Nat) : slotOf (hardwareReset s) k = Slot.empty :=
  slotOf_eq_empty_of_slots rfl k

/-- Settles O15: the state hardware reset leaves, read off field by field. -/
theorem hardwareResetLoadsResetValues : Obligations.HardwareResetLoadsResetValues := by
  intro s rest hp
  refine ⟨hardwareReset { s with pending := rest }, step_of_pending_rst hp, rfl, rfl, rfl, rfl, ?buffer, ?words,
    rfl, rfl, rfl, rfl, ?slots, rfl, rfl, rfl, rfl, rfl, ?status, rfl, ?bytesHi, fun _ => rfl, ?stream⟩
  case buffer => exact fun j _ => byteOf_replicate 128 j
  case words => exact fun j _ => ⟨wordOf_replicate 16 j, wordOf_replicate 16 j⟩
  case slots =>
    intro k _
    rw [slotOf_hardwareReset]
    exact ⟨rfl, rfl, rfl, fun j _ => wordOf_replicate 4 j, fun j _ => byteOf_replicate 64 j⟩
  case status => simp [statusExact, slotv, slotValid, Slot.empty, packStatus, ErrCode.code]
  case bytesHi => simp [bytesHi]
  case stream => exact ⟨rfl, rfl, rfl, fun j hj => absurd hj (Nat.not_lt_zero j)⟩

end Sys2Proof.Machine
end

section
/-! Hidden state, 10_state.md R35: each operation takes two states that differ only in what no interface can read to two
such states, and so does the step (O19). -/

namespace Sys2Proof.Machine

/-! ### The shared operations -/

theorem SameSlot.refl (x : Slot) : SameSlot x x := ⟨rfl, fun _ => ⟨rfl, rfl, rfl, fun _ _ => rfl⟩⟩

theorem SameVisible.refl (s : State) : SameVisible s s :=
  ⟨rfl, rfl, rfl, rfl, rfl, rfl, rfl, rfl, rfl, rfl, rfl, rfl, fun _ _ => rfl, fun _ => .refl _⟩

section
variable {s t : State} (h : SameVisible s t)
include h

theorem SameVisible.raiseErr_congr (e : ErrCode) : SameVisible (raiseErr e s) (raiseErr e t) := { h with ERR := rfl }

theorem SameVisible.discardWrite_congr : SameVisible (discardWrite s) (discardWrite t) := { h with OVR := rfl }

theorem SameVisible.beginBusy_congr : SameVisible (beginBusy s) (beginBusy t) := { h with ERR := rfl, BUSY := rfl }

theorem SameVisible.complete_congr : SameVisible (complete s) (complete t) := { h with BUSY := rfl }

theorem SameVisible.returnRead_congr {v w : Word} (hv : v = w) : SameVisible (returnRead v s) (returnRead w t) :=
  { h with rdata := hv }

/-- Both runs draw at the same count (notes/assumptions/3.md). -/
theorem SameVisible.returnOrDraw_congr {v w v' w' : Word} (hv : v = v') (hw : w = w') :
    SameVisible (returnOrDraw v w s) (returnOrDraw v' w' t) := by
  cases hb : s.BUSY with
  | true =>
    rw [returnOrDraw_busy _ _ hb, returnOrDraw_busy _ _ (h.BUSY ▸ hb)]
    exact { h with rdata := hw, draws := congrArg (· + 1) h.draws }
  | false =>
    rw [returnOrDraw_ready _ _ hb, returnOrDraw_ready _ _ (h.BUSY ▸ hb)]
    exact { h with rdata := hv }

theorem SameVisible.setMsg_congr (k : Nat) (v : Word) : SameVisible (setMsg k v s) (setMsg k v t) :=
  { h with MSG := by simp [h.MSG] }

theorem SameVisible.setSlot_congr (k : Nat) {x y : Slot} (hxy : SameSlot x y) :
    SameVisible (setSlot k x s) (setSlot k y t) :=
  { h with
    slots := fun j => by
      rw [slotOf_setSlot, slotOf_setSlot]
      split
      · exact hxy
      · exact h.slots j }

/-- Hardware reset leaves no trace of the hidden state: the two states are then equal (R36). -/
theorem SameVisible.hardwareReset_congr : SameVisible (hardwareReset s) (hardwareReset t) := by
  rw [hardwareReset, hardwareReset, h.draws, h.pending]
  exact .refl _

theorem SameVisible.driveRst_congr (level : Bool) : SameVisible (driveRst level s) (driveRst level t) := by
  cases level with
  | true => exact h.hardwareReset_congr
  | false => exact { h with rst := rfl }

theorem SameVisible.heldInReset_congr (w : HostWord) : SameVisible (heldInReset w s) (heldInReset w t) := by
  unfold heldInReset
  split
  · exact h.returnRead_congr rfl
  · exact h

/-! ### The values of reads -/

theorem SameVisible.slotv_eq : slotv s = slotv t := by
  have hv : ∀ k, slotValid s k = slotValid t k := fun k => (h.slots k).1
  simp only [slotv, hv]

theorem SameVisible.statusExact_eq : statusExact s = statusExact t := by
  simp only [statusExact, h.slotv_eq, h.BL, h.ERR, h.OVR, h.FIN, h.BUSY]

theorem SameVisible.statusDrawn_eq : statusDrawn s = statusDrawn t := by
  simp only [statusDrawn, h.draws, h.ERR, h.OVR, h.BUSY]

theorem SameVisible.bytesLo_eq : bytesLo s = bytesLo t := by simp only [bytesLo, h.BH]

theorem SameVisible.bytesHi_eq : bytesHi s = bytesHi t := by simp only [bytesHi, h.BH]

theorem SameVisible.digestWord_eq (k : Nat) : digestWord s k = digestWord t k := by
  simp only [digestWord, h.FIN, h.BUSY, h.H]

end

/-! ### Absorbing bytes -/

/-- What absorbing blocks writes to H depends on H and on the bytes absorbed, not on the core's working registers. -/
theorem absorbBlocks_H_congr {src src' : Nat → Byte} {pos : Nat} (q : Nat) {k : Nat} {s t : State} (hH : s.H = t.H)
    (hsrc : ∀ j, j < 64 * k → src (pos + j) = src' (pos + j)) :
    (absorbBlocks src pos q k s).H = (absorbBlocks src' pos q k t).H := by
  induction k generalizing pos q s t with
  | zero => exact hH
  | succ k ih =>
    have hblk : blockAt src pos = blockAt src' pos := blockAt_congr fun j hj => hsrc j (by omega)
    refine ih (q + 1) (by simp only [absorbBlock, hH, hblk]) fun j hj => ?_
    rw [Nat.add_assoc]
    exact hsrc (64 + j) (by omega)

theorem compressSpan_H_congr {src src' : Nat → Byte} {pos len : Nat} {s t : State} (hH : s.H = t.H)
    (hsrc : ∀ j, j < len → src (pos + j) = src' (pos + j)) :
    (compressSpan src pos len s).H = (compressSpan src' pos len t).H :=
  absorbBlocks_H_congr 0 hH fun j hj => hsrc j (by omega)

/-- A fill hides whatever stood in its range. -/
theorem byteOf_fill_congr {n : Nat} {v w : Vector Byte n} {lo hi : Nat} {f : Nat → Byte} {j : Nat}
    (h : ¬ (lo ≤ j ∧ j < hi ∧ j < n) → byteOf v j = byteOf w j) :
    byteOf (fill v lo hi f) j = byteOf (fill w lo hi f) j := by
  rw [byteOf_fill, byteOf_fill]
  split
  · rfl
  · exact h ‹_›

/-- Buffers that agree below BL agree, once padded, on all that is compressed: the padding overwrites the rest. -/
theorem padBuffer_congr {BL : Nat} (BH : BitVec 64) {buf buf' : Vector Byte 128}
    (hbuf : ∀ j, j < BL → byteOf buf j = byteOf buf' j) {j : Nat} (hj : j < 128) (h : j < BL ∨ j < paddedLength BH) :
    byteOf (padBuffer BL BH buf) j = byteOf (padBuffer BL BH buf') j := by
  rw [byteOf_padBuffer _ _ _ _ hj, byteOf_padBuffer _ _ _ _ hj]
  split
  · rfl
  split
  · rfl
  split
  · rfl
  · exact hbuf j (by omega)

/-! ### Commands -/

/-- The block's decoder passes no UPDATE longer than the window (R72, R76). -/
theorem le_of_decodeCmd_update {numSlots : Nat} {c : Word} {n : BitVec 7} (h : decodeCmd numSlots c = .ok (.update n)) :
    n.toNat ≤ 64 := by
  unfold decodeCmd at h
  split at h
  case h_1 | h_2 | h_4 | h_5 => cases (ifClear_eq_ok.mp h).2
  case h_3 =>
    obtain ⟨-, hle, hx⟩ := ifClearInRange_eq_ok.mp h
    cases hx
    exact of_decide_eq_true hle
  case h_6 | h_7 | h_8 =>
    obtain ⟨-, -, hx⟩ := ifClearInRange_eq_ok.mp h
    cases hx
  case h_9 => cases h

/-- Two results of a command: the same code, or states that differ only in what is hidden. -/
inductive SameResult : Except ErrCode State → Except ErrCode State → Prop where
  | error (e : ErrCode) : SameResult (.error e) (.error e)
  | ok {s t : State} (h : SameVisible s t) : SameResult (.ok s) (.ok t)

theorem SameResult.ite {p : Prop} [Decidable p] {r r' q q' : Except ErrCode State} (hr : p → SameResult r r')
    (hq : SameResult q q') : SameResult (if p then r else q) (if p then r' else q') := by
  split
  · exact hr ‹_›
  · exact hq

section
variable {s t : State} (h : SameVisible s t)
include h

theorem SameVisible.resetCmd_congr : SameResult (resetCmd s) (resetCmd t) :=
  .ok { h with
    H := rfl, BL := rfl, BH := rfl, FIN := rfl, OVR := rfl
    buf := fun j hj => absurd hj (Nat.not_lt_zero j) }

theorem SameVisible.cleanCmd_congr : SameResult (cleanCmd s) (cleanCmd t) :=
  .ok { h with
    H := rfl, BL := rfl, BH := rfl, FIN := rfl, OVR := rfl, MSG := rfl
    buf := fun _ _ => rfl }

/-- The bytes UPDATE compresses or keeps are window bytes and buffered bytes below BL; one case for each way the window
meets the buffer (R143). -/
theorem SameVisible.updateCmd_congr {n : BitVec 7} (hn : n.toNat ≤ 64) :
    SameResult (updateCmd n s) (updateCmd n t) := by
  cases hf : s.FIN with
  | true =>
    rw [updateCmd, updateCmd, if_pos hf, if_pos (h.FIN ▸ hf)]
    exact .error _
  | false =>
    have hf' : t.FIN = false := h.FIN ▸ hf
    have hBL : s.BL.toNat < 64 := s.BL.isLt
    have hfull : ∀ j, j < 64 →
        byteOf (fill s.buf s.BL.toNat 64 fun j => msgByte s.MSG (j - s.BL.toNat)) j =
          byteOf (fill t.buf s.BL.toNat 64 fun j => msgByte s.MSG (j - s.BL.toNat)) j :=
      fun j hj => byteOf_fill_congr fun _ => h.buf j (by omega)
    by_cases hshort : s.BL.toNat + n.toNat < 64
    · rw [updateCmd_short hf hshort, updateCmd_short hf' (h.BL ▸ hshort), ← h.BL, ← h.BH, ← h.MSG]
      refine .ok { h with BL := rfl, BH := rfl, MSG := rfl, buf := fun j hj => byteOf_fill_congr fun _ => h.buf j ?_ }
      have hlt : j < s.BL.toNat + n.toNat := Nat.lt_of_lt_of_le hj (by rw [BitVec.toNat_ofNat]; exact Nat.mod_le _ _)
      omega
    · by_cases hb : s.BL.toNat = 0
      · rw [updateCmd_whole hf hb (by omega), updateCmd_whole hf' (h.BL ▸ hb) (by omega), ← h.BH, ← h.MSG]
        exact .ok { h with
          BL := rfl, BH := rfl, MSG := rfl
          H := by simp only [absorbBlock, h.H]
          buf := fun j hj => absurd hj (Nat.not_lt_zero j) }
      · rw [updateCmd_fills hf hb (by omega) hn, updateCmd_fills hf' (h.BL ▸ hb) (by rw [← h.BL]; omega) hn,
          ← h.BL, ← h.BH, ← h.MSG, blockAt_congr fun j hj => hfull (0 + j) (by omega)]
        exact .ok { h with
          BL := rfl, BH := rfl, MSG := rfl
          H := by simp only [absorbBlock, h.H]
          buf := fun j hj => byteOf_fill_congr fun _ => hfull j (Nat.lt_trans hj (BitVec.isLt _)) }

theorem SameVisible.finishCmd_congr : SameResult (finishCmd s) (finishCmd t) := by
  cases hf : s.FIN with
  | true =>
    rw [finishCmd, finishCmd, if_pos hf, if_pos (h.FIN ▸ hf)]
    exact .ok h
  | false =>
    have hP := paddedLength_le s.BH
    rw [finishCmd_live hf, finishCmd_live (h.FIN ▸ hf), ← h.BL, ← h.BH]
    refine .ok { h with BL := rfl, BH := rfl, H := ?_, FIN := rfl, buf := fun j hj => ?_ }
    · exact compressSpan_H_congr h.H fun j hj => padBuffer_congr s.BH h.buf (by omega) (.inr (by omega))
    · have hBL : s.BL.toNat < 64 := s.BL.isLt
      exact padBuffer_congr s.BH h.buf (Nat.lt_trans hj (by omega)) (.inl hj)

theorem SameVisible.snapshot_congr : SameSlot (snapshot s) (snapshot t) := by
  refine ⟨rfl, fun _ => ⟨h.H, h.BL, h.BH, fun j hj => ?_⟩⟩
  have hj64 : j < 64 := Nat.lt_trans hj s.BL.isLt
  show byteOf (blockAt (byteOf s.buf) 0) j = byteOf (blockAt (byteOf t.buf) 0) j
  rw [byteOf_blockAt _ _ _ hj64, byteOf_blockAt _ _ _ hj64, Nat.zero_add]
  exact h.buf j hj

theorem SameVisible.saveCmd_congr (k : BitVec 4) : SameResult (saveCmd k s) (saveCmd k t) := by
  rw [saveCmd, saveCmd, ← h.FIN]
  exact .ite (fun _ => .error _) (.ok (h.setSlot_congr _ h.snapshot_congr))

theorem SameVisible.restoreCmd_congr (k : BitVec 4) : SameResult (restoreCmd k s) (restoreCmd k t) := by
  obtain ⟨hvalid, hfields⟩ := h.slots k.toNat
  cases hv : (slotOf s k.toNat).valid with
  | false =>
    rw [restoreCmd, restoreCmd, if_neg (by simp [hv]), if_neg (by simp [← hvalid, hv])]
    exact .error _
  | true =>
    obtain ⟨hH, hBL, hBH, hbuf⟩ := hfields hv
    rw [restoreCmd, restoreCmd, if_pos hv, if_pos (hvalid ▸ hv)]
    refine .ok { h with H := hH, BL := hBL, BH := hBH, FIN := rfl, buf := fun j hj => ?_ }
    have hj64 : j < 64 := Nat.lt_trans hj (slotOf s k.toNat).BL.isLt
    show byteOf (fill s.buf 0 64 _) j = byteOf (fill t.buf 0 64 _) j
    rw [byteOf_fill, byteOf_fill, if_pos (by omega), if_pos (by omega)]
    exact hbuf j hj

theorem SameVisible.dropCmd_congr (k : BitVec 4) : SameResult (dropCmd k s) (dropCmd k t) :=
  .ok (h.setSlot_congr _ (.refl _))

theorem SameVisible.runCmd_congr {c : Cmd} (hlen : ∀ n, c = .update n → n.toNat ≤ 64) :
    SameResult (runCmd c s) (runCmd c t) := by
  cases c with
  | nop => exact .ok h
  | reset => exact h.resetCmd_congr
  | update n => exact h.updateCmd_congr (hlen n rfl)
  | finish => exact h.finishCmd_congr
  | clean => exact h.cleanCmd_congr
  | save k => exact h.saveCmd_congr k
  | restore k => exact h.restoreCmd_congr k
  | drop k => exact h.dropCmd_congr k

theorem SameVisible.issue_congr {r r' : Except ErrCode State} (hr : SameResult r r') :
    SameVisible (issue r s) (issue r' t) := by
  cases hb : s.BUSY with
  | true =>
    rw [issue_busy _ hb, issue_busy _ (h.BUSY ▸ hb)]
    exact h.discardWrite_congr
  | false =>
    have hb' : t.BUSY = false := h.BUSY ▸ hb
    cases hr with
    | error e => rw [issue_error _ hb, issue_error _ hb']; exact h.raiseErr_congr e
    | ok huv => rw [issue_ok _ hb, issue_ok _ hb']; exact huv.beginBusy_congr

/-! ### Instructions and steps -/

theorem SameVisible.acceptWord_congr (c : Word) : SameResult (acceptWord c s) (acceptWord c t) := by
  unfold acceptWord
  split
  · exact .error _
  · rename_i cmd hd
    exact h.runCmd_congr fun n hn => le_of_decodeCmd_update (hn ▸ hd)

/-- One instruction, in any two states that differ only in what is hidden. -/
theorem SameVisible.exec_congr {i : Instr} {s' t' : State} (hs : exec i s = .next s') (ht : exec i t = .next t') :
    SameVisible s' t' := by
  cases i <;> obtain rfl := Host.Outcome.next.inj hs <;> obtain rfl := Host.Outcome.next.inj ht
  case nop => exact h.issue_congr (.ok h)
  case reset => exact h.issue_congr h.resetCmd_congr
  case update n => exact h.issue_congr (.ite h.updateCmd_congr (.error _))
  case finish => exact h.issue_congr h.finishCmd_congr
  case clean => exact h.issue_congr h.cleanCmd_congr
  case save k => exact h.issue_congr (.ite (fun _ => h.saveCmd_congr k) (.error _))
  case restore k => exact h.issue_congr (.ite (fun _ => h.restoreCmd_congr k) (.error _))
  case drop k => exact h.issue_congr (.ite (fun _ => h.dropCmd_congr k) (.error _))
  case reservedOpcode => exact h.issue_congr (.error _)
  case wrCmd v => exact h.issue_congr (h.acceptWord_congr v)
  case rdStatus => exact h.returnOrDraw_congr h.statusExact_eq h.statusDrawn_eq
  case rdBytesLo => exact h.returnOrDraw_congr h.bytesLo_eq (congrArg _ h.draws)
  case rdBytesHi => exact h.returnOrDraw_congr h.bytesHi_eq (congrArg _ h.draws)
  case rdDigest k => exact h.returnRead_congr (h.digestWord_eq _)
  case wrMsg k v =>
    cases hb : s.BUSY with
    | true => simpa [← h.BUSY, hb] using h.discardWrite_congr
    | false => simpa [← h.BUSY, hb] using h.setMsg_congr k.toNat v
  case rdCmd | rdMsg | rdReserved08 | rdReserved20 => exact h.returnRead_congr rfl
  case wrStatus | wrBytes | wrDigest | wrReserved48 | wrReserved60 => exact h

theorem SameVisible.hostStep_congr {w : HostWord} {s' t' : State} (hs : hostStep w s = .next s')
    (ht : hostStep w t = .next t') : SameVisible s' t' := by
  cases hd : decode w with
  | ok i =>
    rw [hostStep_of_decode_ok hd] at hs ht
    exact h.exec_congr hs ht
  | error code =>
    simp only [hostStep, hd, Host.Outcome.next.injEq] at hs ht
    subst hs ht
    exact h.issue_congr (.error code)

end

/-- Settles O19: both states take the same event, and no event shows what is hidden. -/
theorem hiddenStateIsNeverObserved : Obligations.HiddenStateIsNeverObserved := by
  intro s t s' t' h hs ht
  cases hp : s.pending with
  | nil =>
    simp only [step_of_pending_nil hp, step_of_pending_nil (h.pending ▸ hp), Host.Outcome.next.injEq] at hs ht
    subst hs ht
    exact h.complete_congr
  | cons e rest =>
    have hq : SameVisible { s with pending := rest } { t with pending := rest } := { h with pending := rfl }
    have hpt : t.pending = e :: rest := h.pending ▸ hp
    cases e with
    | complete =>
      simp only [step_of_pending_complete hp, step_of_pending_complete hpt, Host.Outcome.next.injEq] at hs ht
      subst hs ht
      exact hq.complete_congr
    | rst level =>
      simp only [step_of_pending_rst hp, step_of_pending_rst hpt, Host.Outcome.next.injEq] at hs ht
      subst hs ht
      exact hq.driveRst_congr level
    | host w =>
      cases hr : s.rst with
      | true =>
        simp only [step_of_pending_host_held hp hr, step_of_pending_host_held hpt (h.rst ▸ hr),
          Host.Outcome.next.injEq] at hs ht
        subst hs ht
        exact hq.heldInReset_congr w
      | false =>
        rw [step_of_pending_host hp hr] at hs
        rw [step_of_pending_host hpt (h.rst ▸ hr)] at ht
        exact hq.hostStep_congr hs ht

end Sys2Proof.Machine
end

section
/-! The invariant of the block: it holds at reset (O17), and every step keeps it (O18). 10_state.md R27, R31,
42_host_access.md R187, 70_reset_and_hazards.md R230. -/

namespace Sys2Proof.Machine

/-- What the invariant says of one slot: valid, its cursor agrees with its byte count; otherwise it is empty. -/
structure SlotInv (x : Slot) : Prop where
  cursor : x.valid = true → CursorOk x.BL x.BH
  empty : x.valid = false → x = Slot.empty

theorem slotInv_empty : SlotInv Slot.empty := ⟨fun h => absurd h Bool.false_ne_true, fun _ => rfl⟩

theorem BlockInv.slotInv {s : State} (hi : BlockInv s) (k : Nat) : SlotInv (slotOf s k) :=
  ⟨hi.slotCursor k, hi.slotEmpty k⟩

/-- An operation that leaves the cursor and the slots as they were has only the other two clauses to show. -/
theorem BlockInv.of_same_cursors {s t : State} (hi : BlockInv s) (hBL : t.BL = s.BL) (hBH : t.BH = s.BH)
    (hslots : t.slots = s.slots) (hbusy : t.BUSY = true → t.ERR = .ok) (hheld : t.rst = true → HeldAtReset t) :
    BlockInv t where
  cursor := by rw [hBL, hBH]; exact hi.cursor
  slotCursor k := by rw [slotOf, hslots]; exact hi.slotCursor k
  slotEmpty k := by rw [slotOf, hslots]; exact hi.slotEmpty k
  busyOk := hbusy
  held := hheld

/-- The invariant of a state with every slot at its reset value. -/
theorem BlockInv.of_reset_values {s : State} (hBL : s.BL = 0) (hBH : s.BH = 0)
    (hslots : ∀ k, slotOf s k = Slot.empty) (hbusy : s.BUSY = false) (hheld : s.rst = true → HeldAtReset s) :
    BlockInv s where
  cursor := by rw [hBL, hBH]; rfl
  slotCursor k := (hslots k ▸ slotInv_empty).cursor
  slotEmpty k _ := hslots k
  busyOk h := absurd h (by simp [hbusy])
  held := hheld

/-- Settles O17: in the reset state the cursor and the byte count are 0 and every slot is empty. -/
theorem invariantHoldsAtReset : Obligations.InvariantHoldsAtReset :=
  .of_reset_values rfl rfl (slotOf_eq_empty_of_slots rfl) rfl fun h => absurd h Bool.false_ne_true

theorem blockInv_hardwareReset (s : State) : BlockInv (hardwareReset s) :=
  .of_reset_values rfl rfl (slotOf_hardwareReset s) rfl fun _ => rfl

/-! ### Commands -/

theorem saveCmd_ok {k : BitVec 4} {s t : State} (h : saveCmd k s = .ok t) :
    s.FIN = false ∧ t = setSlot k.toNat (snapshot s) s := by
  unfold saveCmd at h
  split at h
  · cases h
  · exact ⟨Bool.eq_false_of_not_eq_true ‹_›, (Except.ok.inj h).symm⟩

theorem restoreCmd_ok {k : BitVec 4} {s t : State} (h : restoreCmd k s = .ok t) :
    (slotOf s k.toNat).valid = true ∧
      t = { s with
        H := (slotOf s k.toNat).H
        buf := fill s.buf 0 64 (byteOf (slotOf s k.toNat).buf)
        BL := (slotOf s k.toNat).BL
        BH := (slotOf s k.toNat).BH
        FIN := false } := by
  unfold restoreCmd at h
  dsimp only at h
  split at h
  · exact ⟨‹_›, (Except.ok.inj h).symm⟩
  · cases h

/-- UPDATE of any length moves the cursor by that length modulo the block size (R143). -/
theorem updateCmd_BL {n : BitVec 7} {s t : State} (h : updateCmd n s = .ok t) :
    t.BL.toNat = (s.BL.toNat + n.toNat) % 64 := by
  have hBL : s.BL.toNat < 64 := s.BL.isLt
  unfold updateCmd at h
  split at h
  · cases h
  obtain rfl := Except.ok.inj h
  simp only [keepRest, fullBlock, spanEnd, BitVec.toNat_ofNat]
  unfold topUp topUpCount
  split
  · dsimp only; omega
  · dsimp only
    split
    · dsimp only; omega
    · dsimp only; omega

theorem topUp_BH (n t : Nat) (s : State) : (topUp n t s).1.BH = s.BH := by
  unfold topUp
  split
  · rfl
  · dsimp only
    split <;> rfl

theorem updateCmd_BH {n : BitVec 7} {s t : State} (h : updateCmd n s = .ok t) :
    t.BH.toNat = (s.BH.toNat + n.toNat) % 2 ^ 64 := by
  have hn : n.toNat < 2 ^ 64 := Nat.lt_trans n.isLt (by decide)
  unfold updateCmd at h
  split at h
  · cases h
  obtain rfl := Except.ok.inj h
  simp only [keepRest, fullBlock]
  rw [compressSpan_frame, topUp_BH, BitVec.toNat_add, BitVec.toNat_setWidth, Nat.mod_eq_of_lt hn]

/-- R31, kept by every command that succeeds. -/
theorem runCmd_cursorOk {c : Cmd} {s t : State} (hi : BlockInv s) (h : runCmd c s = .ok t) : CursorOk t.BL t.BH := by
  have hcur : s.BL.toNat = s.BH.toNat % 64 := hi.cursor
  cases c with
  | nop | drop =>
    obtain rfl := Except.ok.inj h
    exact hcur
  | reset | clean =>
    obtain rfl := Except.ok.inj h
    rfl
  | update n =>
    have hBL := updateCmd_BL h
    have hBH := updateCmd_BH h
    show t.BL.toNat = t.BH.toNat % 64
    omega
  | finish =>
    rw [(finishCmd_frame h).1]
    exact hcur
  | save k =>
    obtain ⟨-, rfl⟩ := saveCmd_ok h
    exact hcur
  | restore k =>
    obtain ⟨hv, rfl⟩ := restoreCmd_ok h
    exact hi.slotCursor k.toNat hv

theorem slotInv_setSlot {s : State} {x : Slot} (j : Nat) (hs : ∀ k, SlotInv (slotOf s k)) (hx : SlotInv x) (k : Nat) :
    SlotInv (slotOf (setSlot j x s) k) := by
  rw [slotOf_setSlot]
  split
  · exact hx
  · exact hs k

/-- A snapshot of a live or finished hasher has the hasher's cursor (R150). -/
theorem slotInv_snapshot {s : State} (hi : BlockInv s) : SlotInv (snapshot s) :=
  ⟨fun _ => hi.cursor, fun h => absurd h.symm Bool.false_ne_true⟩

theorem runCmd_slotInv {c : Cmd} {s t : State} (hi : BlockInv s) (h : runCmd c s = .ok t) (k : Nat) :
    SlotInv (slotOf t k) := by
  cases c with
  | nop | reset | clean =>
    obtain rfl := Except.ok.inj h
    exact hi.slotInv k
  | update n =>
    rw [(updateCmd_frame h).2]
    exact hi.slotInv k
  | finish =>
    rw [(finishCmd_frame h).1]
    exact hi.slotInv k
  | save j =>
    obtain ⟨-, rfl⟩ := saveCmd_ok h
    exact slotInv_setSlot _ hi.slotInv (slotInv_snapshot hi) k
  | restore j =>
    obtain ⟨-, rfl⟩ := restoreCmd_ok h
    exact hi.slotInv k
  | drop j =>
    obtain rfl := Except.ok.inj h
    exact slotInv_setSlot _ hi.slotInv slotInv_empty k

/-! ### Steps -/

/-- Taking an event from the queue touches nothing of the block. -/
theorem BlockInv.with_pending {s : State} (hi : BlockInv s) (rest : List Event) : BlockInv { s with pending := rest } :=
  hi.of_same_cursors rfl rfl rfl hi.busyOk fun h => congrArg (fun x : State => { x with pending := rest }) (hi.held h)

theorem BlockInv.of_complete {s : State} (hi : BlockInv s) : BlockInv (complete s) :=
  hi.of_same_cursors rfl rfl rfl (fun h => absurd h Bool.false_ne_true) fun h => congrArg complete (hi.held h)

/-- The read value 0 is the one the reset state has (notes/assumptions/4.md). -/
theorem BlockInv.of_heldInReset {s : State} (hi : BlockInv s) (w : HostWord) : BlockInv (heldInReset w s) := by
  unfold heldInReset
  split
  · exact hi.of_same_cursors rfl rfl rfl hi.busyOk fun h => congrArg (returnRead 0) (hi.held h)
  · exact hi

theorem BlockInv.of_hostStep {w : HostWord} {s t : State} (hi : BlockInv s) (hr : s.rst = false)
    (h : hostStep w s = .next t) : BlockInv t := by
  have hlow : s.rst = true → HeldAtReset t := fun h => absurd h (by simp [hr])
  obtain ⟨c, -, -, ⟨hb, rfl⟩ | ⟨hb, e, -, rfl⟩ | ⟨hb, x, u, -, hu, rfl⟩⟩ |
    ⟨-, -, ⟨hb, rfl⟩ | ⟨hb, sel, k, v, -, -, rfl⟩⟩ | ⟨-, -, e⟩ := hostStep_writes h
  · exact hi.of_same_cursors rfl rfl rfl hi.busyOk hlow
  · exact hi.of_same_cursors rfl rfl rfl (fun h => absurd h (by simp [hb])) hlow
  · have hslot := runCmd_slotInv hi hu
    have hcur : CursorOk u.BL u.BH := runCmd_cursorOk hi hu
    exact {
      cursor := hcur
      slotCursor := fun k => (hslot k).cursor
      slotEmpty := fun k => (hslot k).empty
      busyOk := fun _ => rfl
      held := fun h => hlow ((runCmd_frame hu).rst ▸ h) }
  · exact hi.of_same_cursors rfl rfl rfl hi.busyOk hlow
  · exact hi.of_same_cursors rfl rfl rfl hi.busyOk hlow
  · rw [e] at hlow ⊢
    exact hi.of_same_cursors rfl rfl rfl hi.busyOk hlow

/-- Settles O18, by the kinds of event: only a command that succeeds writes a cursor or a slot, and while `rst` is
high none runs. -/
theorem everyStepKeepsTheInvariant : Obligations.EveryStepKeepsTheInvariant := by
  intro s t hi h
  obtain ⟨-, rfl⟩ | ⟨e, rest, -, ⟨-, rfl⟩ | ⟨-, rfl⟩ | ⟨-, rfl⟩ | ⟨w, -, -, rfl⟩ | ⟨w, -, hr, h⟩⟩ := step_cases h
  · exact hi.of_complete
  · exact (hi.with_pending rest).of_complete
  · exact blockInv_hardwareReset _
  · exact hi.of_same_cursors rfl rfl rfl hi.busyOk fun h => absurd h Bool.false_ne_true
  · exact (hi.with_pending rest).of_heldInReset w
  · exact (hi.with_pending rest).of_hostStep hr h

end Sys2Proof.Machine
end

section
/-! Who writes the hash state, the slots and the window, 10_state.md R20, R27, R32: said once of a step, then field by
field (O25, O27). -/

namespace Sys2Proof.Machine

/-- What can write H, a slot or a window word in one step: hardware reset, or, with `rst` and BUSY low, a command that
succeeds or a write to MSGk. Any other step leaves all three as they were. -/
theorem step_writes {s t : State} (h : step s = .next t) :
    (∃ rest, s.pending = .rst true :: rest) ∨
    (t.H = s.H ∧ t.slots = s.slots ∧ t.MSG = s.MSG) ∨
    (s.rst = false ∧ s.BUSY = false ∧ ∃ w rest, s.pending = .host w :: rest ∧
      ((∃ c u, cmdWrite? w = some (encodeCmd c) ∧ runCmd c { s with pending := rest } = .ok u ∧ t = beginBusy u) ∨
        ∃ (sel : BitVec 7) (k : BitVec 4) (v : Word), w = .bus sel v ∧ sel.toNat = 0x50 + k.toNat ∧
          t = setMsg k.toNat v { s with pending := rest })) := by
  obtain ⟨-, rfl⟩ | ⟨e, rest, hp, ⟨-, rfl⟩ | ⟨rfl, -⟩ | ⟨-, rfl⟩ | ⟨w, -, -, rfl⟩ | ⟨w, rfl, hr, h⟩⟩ := step_cases h
  · exact .inr (.inl ⟨rfl, rfl, rfl⟩)
  · exact .inr (.inl ⟨rfl, rfl, rfl⟩)
  · exact .inl ⟨rest, hp⟩
  · exact .inr (.inl ⟨rfl, rfl, rfl⟩)
  · refine .inr (.inl ?_)
    unfold heldInReset
    split <;> exact ⟨rfl, rfl, rfl⟩
  · obtain ⟨_, hw, -, ⟨-, rfl⟩ | ⟨-, e, -, rfl⟩ | ⟨hb, x, u, rfl, hu, rfl⟩⟩ |
      ⟨-, -, ⟨-, rfl⟩ | ⟨hb, sel, k, v, hw, hk, rfl⟩⟩ | ⟨-, -, e⟩ := hostStep_writes h
    · exact .inr (.inl ⟨rfl, rfl, rfl⟩)
    · exact .inr (.inl ⟨rfl, rfl, rfl⟩)
    · exact .inr (.inr ⟨hr, hb, w, rest, hp, .inl ⟨x, u, hw, hu, rfl⟩⟩)
    · exact .inr (.inl ⟨rfl, rfl, rfl⟩)
    · exact .inr (.inr ⟨hr, hb, w, rest, hp, .inr ⟨sel, k, v, hw, hk, rfl⟩⟩)
    · rw [e]
      exact .inr (.inl ⟨rfl, rfl, rfl⟩)

/-- Settles O25: of the writers of a step, the command that ran is one of the five that write H. -/
theorem hashStateHasOnlyItsWriters : Obligations.HashStateHasOnlyItsWriters := by
  intro s t h hne
  obtain hrst | ⟨hH, -⟩ | ⟨hr, hb, w, rest, hp, ⟨c, u, hw, hu, rfl⟩ | ⟨-, k, v, -, -, rfl⟩⟩ := step_writes h
  · exact .inl hrst
  · exact absurd hH.symm hne
  · refine .inr ⟨hr, hb, rfl, w, rest, encodeCmd c, hp, hw, ?_⟩
    obtain hH | ⟨rfl, -⟩ | ⟨⟨n, rfl⟩, -⟩ | rfl | rfl | ⟨k, rfl⟩ := (runCmd_frame hu).H
    · exact absurd hH.symm hne
    · exact .inr (.inl rfl)
    · exact .inr (.inr (.inr (.inl ⟨n, rfl⟩)))
    · exact .inl rfl
    · exact .inr (.inr (.inl rfl))
    · exact .inr (.inr (.inr (.inr ⟨k, rfl⟩)))
  · exact absurd rfl hne

/-- A window word that a write changes is the one written. -/
theorem eq_of_wordOf_setIfInBounds_ne {n : Nat} {v : Vector Word n} {k : Nat} {x : Word} {j : Nat}
    (h : wordOf (v.setIfInBounds k x) j ≠ wordOf v j) : k = j ∧ wordOf (v.setIfInBounds k x) j = x := by
  by_cases hj : j < n
  · rw [wordOf_setIfInBounds _ _ _ _ hj] at h ⊢
    split at h
    · exact ⟨‹_›, if_pos ‹_›⟩
    · exact absurd rfl h
  · exact absurd (by simp [wordOf, hj]) h

/-- Settles O27: of the writers of a step, SAVE and DROP write the slot they name, and CLEAN and a write to MSGk the
window. -/
theorem slotsAndWindowHaveOnlyTheirWriters : Obligations.SlotsAndWindowHaveOnlyTheirWriters := by
  intro s t h
  obtain hrst | ⟨-, hs, hM⟩ | ⟨hr, hb, w, rest, hp, ⟨c, u, hw, hu, rfl⟩ | ⟨sel, x, v, hw, hx, rfl⟩⟩ := step_writes h
  case inl => exact ⟨fun _ _ => .inl hrst, fun _ _ => .inl hrst⟩
  case inr.inl => exact ⟨fun k hne => absurd (by rw [slotOf, slotOf, hs]) hne, fun j hne => absurd (by rw [hM]) hne⟩
  case inr.inr.inl =>
    refine ⟨fun k hne => .inr ⟨hr, hb, rfl, w, rest, hp, ?_⟩, fun j hne => .inr ⟨hr, hb, w, rest, hp, .inr ?_⟩⟩
    · obtain hs | ⟨x, hc, hs⟩ := (runCmd_frame hu).slots
      · exact absurd (hs k) hne
      · refine ⟨x, Classical.byContradiction fun hk => hne (hs k hk), ?_⟩
        obtain rfl | rfl := hc
        · exact .inl hw
        · exact .inr hw
    · obtain hM | rfl := (runCmd_frame hu).MSG
      · exact absurd (by rw [beginBusy_MSG, hM]) hne
      · obtain rfl := Except.ok.inj hu
        exact ⟨hw, rfl, wordOf_replicate 16 j⟩
  case inr.inr.inr =>
    refine ⟨fun k hne => absurd rfl hne, fun j hne => .inr ⟨hr, hb, w, rest, hp, .inl ⟨sel, v, hw, ?_⟩⟩⟩
    obtain ⟨rfl, hv⟩ := eq_of_wordOf_setIfInBounds_ne hne
    exact ⟨hx, hv⟩

end Sys2Proof.Machine
end

section
/-! The block's command decoder against the pseudocode of 30_encoding.md R76 (O3), and its worked words, R82 (O5). -/

namespace Sys2Proof.Machine

/-! ### The checks, as the pseudocode writes them -/

theorem lenField_eq_ofNat (c : Word) : lenField c = BitVec.ofNat 7 (c.toNat / 2 ^ 8 % 128) := by
  rw [← lenField_toNat, BitVec.ofNat_toNat, BitVec.setWidth_eq]

theorem slotField_eq_ofNat (c : Word) : slotField c = BitVec.ofNat 4 (c.toNat / 2 ^ 16 % 16) := by
  rw [← slotField_toNat, BitVec.ofNat_toNat, BitVec.setWidth_eq]

/-- A check that passes exactly when `p` fails, in the pseudocode's order: the rejection first. -/
theorem ifClear_eq_ite {α : Type} {clear : Bool} {p : Prop} [Decidable p] (h : clear = true ↔ ¬ p) (x : α) :
    ifClear clear x = if p then .error .badOp else .ok x := by
  by_cases hp : p <;> simp [ifClear, h, hp]

theorem ifClearInRange_eq_ite {α : Type} {clear inRange : Bool} {p q : Prop} [Decidable p] [Decidable q]
    (h : clear = true ↔ ¬ p) (h' : inRange = true ↔ ¬ q) (code : ErrCode) (x : α) :
    ifClearInRange clear inRange code x = if p then .error .badOp else if q then .error code else .ok x := by
  by_cases hp : p <;> by_cases hq : q <;> simp [ifClearInRange, h, h', hp, hq]

theorem plainCheck_eq (c : Word) (x : Cmd) :
    ifClear (plainBitsClear c) x = if c.toNat / 2 ^ 4 ≠ 0 then .error .badOp else .ok x :=
  ifClear_eq_ite (by rw [plainBitsClear_iff, decide_eq_true_iff, ne_eq, not_not]) x

theorem updateCheck_eq (c : Word) (x : Cmd) :
    ifClearInRange (updateBitsClear c) ((lenField c).toNat ≤ 64) .badLen x =
      if c.toNat / 2 ^ 15 ≠ 0 ∨ c.toNat / 2 ^ 4 % 16 ≠ 0 then .error .badOp
      else if 64 < c.toNat / 2 ^ 8 % 128 then .error .badLen else .ok x :=
  ifClearInRange_eq_ite (by rw [updateBitsClear_iff, decide_eq_true_iff]; omega)
    (by rw [lenField_toNat, decide_eq_true_iff, Nat.not_lt]) _ x

theorem slotCheck_eq (numSlots : Nat) (c : Word) (x : Cmd) :
    ifClearInRange (slotBitsClear c) ((slotField c).toNat < numSlots) .badSlot x =
      if c.toNat / 2 ^ 20 ≠ 0 ∨ c.toNat / 2 ^ 4 % 2 ^ 12 ≠ 0 then .error .badOp
      else if numSlots ≤ c.toNat / 2 ^ 16 % 16 then .error .badSlot else .ok x :=
  ifClearInRange_eq_ite (by rw [slotBitsClear_iff, decide_eq_true_iff]; omega)
    (by rw [slotField_toNat, decide_eq_true_iff, Nat.not_le]) _ x

/-- Settles O3, by opcode: each arm of the decoder makes the checks of its line of the pseudocode, rejection first. -/
theorem commandDecoderFollowsPseudocode : Obligations.CommandDecoderFollowsPseudocode := by
  intro numSlots c
  unfold decodeCmd
  simp only [plainCheck_eq, updateCheck_eq, slotCheck_eq]
  split
  case h_9 h0 h1 h2 h3 h4 h5 h6 h7 =>
    simp only [imp_false, opField_toNat] at *
    exact (if_pos (by omega)).symm
  case h_1 ho | h_2 ho | h_4 ho | h_5 ho => rw [opField_toNat] at ho; simp [ho]
  case h_3 ho => rw [opField_toNat] at ho; simp [ho, lenField_eq_ofNat]
  case h_6 ho | h_7 ho | h_8 ho => rw [opField_toNat] at ho; simp [ho, slotField_eq_ofNat]

/-- Settles O5: closed words, each evaluated. -/
theorem workedCommandWordsDecode : Obligations.WorkedCommandWordsDecode := by
  unfold Obligations.WorkedCommandWordsDecode
  decide

end Sys2Proof.Machine
end

section
/-! The bus selectors, 30_encoding.md R70, R77: the table of the 128 (O4) and a worked selector of each row (O6). -/

namespace Sys2Proof.Machine

/-! ### The bit tests of the selector decoder, as ranges of the word offset -/

/-- One test of the decoder: with the bits above `i` clear, bit `i` of a word offset says that it is 2^i or more, and
the bits below are then its distance from 2^i. -/
theorem ite_topBit {α : Type} {woff : BitVec 6} {i : Nat} {f : BitVec i → α} {x y : α} (hlt : woff.toNat < 2 ^ (i + 1))
    (hxy : woff.toNat < 2 ^ i → x = y) :
    (if woff.extractLsb' i 1 == 1 then f (woff.extractLsb' 0 i) else x) =
      if 2 ^ i ≤ woff.toNat then f (BitVec.ofNat i (woff.toNat - 2 ^ i)) else y := by
  have hbit : (woff.extractLsb' i 1 == 1) = true ↔ 2 ^ i ≤ woff.toNat := by
    have hdiv : woff.toNat / 2 ^ i < 2 := Nat.div_lt_of_lt_mul (by rwa [← Nat.pow_succ])
    have hpos : 0 < woff.toNat / 2 ^ i ↔ 2 ^ i ≤ woff.toNat := by simp [Nat.div_pos_iff]
    rw [beq_iff_eq, ← BitVec.toNat_inj, BitVec.extractLsb'_toNat, Nat.shiftRight_eq_div_pow, Nat.mod_eq_of_lt hdiv,
      ← hpos, show (1 : BitVec 1).toNat = 1 from rfl]
    omega
  by_cases h : 2 ^ i ≤ woff.toNat
  · rw [if_pos (hbit.mpr h), if_pos h]
    congr 1
    apply BitVec.eq_of_toNat_eq
    simpa using Nat.mod_eq_sub_mod h
  · rw [if_neg (mt hbit.mp h), if_neg h]
    exact hxy (Nat.lt_of_not_le h)

theorem decodeWrite_eq (woff : BitVec 6) (v : Word) :
    decodeWrite woff v =
      if 32 ≤ woff.toNat then .wrReserved60 (BitVec.ofNat 5 (woff.toNat - 32)) v
      else if 16 ≤ woff.toNat then .wrMsg (BitVec.ofNat 4 (woff.toNat - 16)) v
      else if 8 ≤ woff.toNat then .wrReserved48 (BitVec.ofNat 3 (woff.toNat - 8)) v
      else if 4 ≤ woff.toNat then .wrDigest (BitVec.ofNat 2 (woff.toNat - 4)) v
      else if 2 ≤ woff.toNat then .wrBytes (BitVec.ofNat 1 (woff.toNat - 2)) v
      else if 1 ≤ woff.toNat then .wrStatus v
      else .wrCmd v :=
  ite_topBit (f := (Instr.wrReserved60 · v)) woff.isLt fun h =>
  ite_topBit (f := (Instr.wrMsg · v)) h fun h =>
  ite_topBit (f := (Instr.wrReserved48 · v)) h fun h =>
  ite_topBit (f := (Instr.wrDigest · v)) h fun h =>
  ite_topBit (f := (Instr.wrBytes · v)) h fun h =>
  ite_topBit (f := fun _ => Instr.wrStatus v) h fun _ => rfl

theorem decodeRead_eq (woff : BitVec 6) :
    decodeRead woff =
      if 32 ≤ woff.toNat then .rdReserved20 (BitVec.ofNat 5 (woff.toNat - 32))
      else if 16 ≤ woff.toNat then .rdMsg (BitVec.ofNat 4 (woff.toNat - 16))
      else if 8 ≤ woff.toNat then .rdReserved08 (BitVec.ofNat 3 (woff.toNat - 8))
      else if 4 ≤ woff.toNat then .rdDigest (BitVec.ofNat 2 (woff.toNat - 4))
      else if 2 ≤ woff.toNat then
        if BitVec.ofNat 1 (woff.toNat - 2) == 1 then .rdBytesHi else .rdBytesLo
      else if 1 ≤ woff.toNat then .rdStatus
      else .rdCmd :=
  ite_topBit (f := Instr.rdReserved20) woff.isLt fun h =>
  ite_topBit (f := Instr.rdMsg) h fun h =>
  ite_topBit (f := Instr.rdReserved08) h fun h =>
  ite_topBit (f := Instr.rdDigest) h fun h =>
  ite_topBit (f := fun b => if b == 1 then Instr.rdBytesHi else .rdBytesLo) h fun h =>
  ite_topBit (f := fun _ => Instr.rdStatus) h fun _ => rfl

/-! ### The table of the selectors -/

/-- `WE` is the selector's top bit, and the word offset is the rest of it (R70). -/
theorem woff_toNat_of_write {sel : BitVec 7} (h : isWrite sel = true) :
    64 ≤ sel.toNat ∧ (sel.extractLsb' 0 6).toNat = sel.toNat - 64 := by
  revert sel; decide

theorem woff_toNat_of_read {sel : BitVec 7} (h : isWrite sel = false) :
    sel.toNat < 64 ∧ (sel.extractLsb' 0 6).toNat = sel.toNat := by
  revert sel; decide

/-- A row looks at the selector of a bus transaction alone, so the rows are counted once for all write data. -/
theorem one_row_covers_selector (sel : BitVec 7) (v : Word) :
    (opcodeTable.filter fun r => r.covers (.bus sel v)).length = 1 := by
  have h : ∀ sel : BitVec 7, (opcodeTable.filter fun r => r.covers (.bus sel 0)).length = 1 := by decide
  exact h sel

/-- Settles O4, row by row of R77: in the range of each row the decoder's tests and the table's conditions come out the
same way. -/
theorem selectorTableCoversEverySelector : Obligations.SelectorTableCoversEverySelector := by
  intro sel v
  refine ⟨congrArg Except.ok ?_, one_row_covers_selector sel v⟩
  cases hw : isWrite sel with
  | true =>
    obtain ⟨hge, hoff⟩ := woff_toNat_of_write hw
    have hlt : sel.toNat < 128 := sel.isLt
    rw [decodeBus, hw, if_pos rfl, decodeWrite_eq, hoff]
    generalize sel.toNat = x at *
    obtain h | h | h | h | h | h | h : x = 0x40 ∨ x = 0x41 ∨ (0x42 ≤ x ∧ x ≤ 0x43) ∨ (0x44 ≤ x ∧ x ≤ 0x47) ∨
      (0x48 ≤ x ∧ x ≤ 0x4F) ∨ (0x50 ≤ x ∧ x ≤ 0x5F) ∨ 0x60 ≤ x := by omega
    all_goals simp (disch := omega) only [if_pos, if_neg, Nat.sub_sub, Nat.reduceAdd]
  | false =>
    obtain ⟨hlt, hoff⟩ := woff_toNat_of_read hw
    rw [decodeBus, hw, if_neg Bool.false_ne_true, decodeRead_eq, hoff]
    generalize sel.toNat = x at *
    obtain h | h | h | h | h | h | h | h : x = 0x00 ∨ x = 0x01 ∨ x = 0x02 ∨ x = 0x03 ∨ (0x04 ≤ x ∧ x ≤ 0x07) ∨
      (0x08 ≤ x ∧ x ≤ 0x0F) ∨ (0x10 ≤ x ∧ x ≤ 0x1F) ∨ 0x20 ≤ x := by omega
    all_goals simp (disch := omega) only [if_pos, if_neg]
    all_goals rw [h]; rfl

/-- Settles O6: fifteen closed selectors, evaluated. -/
theorem workedBusWordsDecode : Obligations.WorkedBusWordsDecode := by
  unfold Obligations.WorkedBusWordsDecode
  decide

end Sys2Proof.Machine
end

section
/-! Command words on the bus, 30_encoding.md R75, R79, R80: a command mnemonic is the write of its word to CMD (O8), the
spellings of the bus primitives (O60), and the words that are rejected with BAD_OP (O11, O49). -/

namespace Sys2Proof.Machine

/-! ### A mnemonic and the write of its word -/

/-- The two families of the CMD format (R71, R75): a command with its own word, or a word with a reserved OP. -/
theorem cmdWord_cases {i : Instr} {c : Word} (h : i.cmdWord? = some c) :
    (∃ x : Cmd, i = x.toInstr ∧ c = encodeCmd x) ∨ i = .reservedOpcode c := by
  cases i with
  | nop => exact .inl ⟨.nop, rfl, (Option.some.inj h).symm⟩
  | reset => exact .inl ⟨.reset, rfl, (Option.some.inj h).symm⟩
  | update n => exact .inl ⟨.update n, rfl, (Option.some.inj h).symm⟩
  | finish => exact .inl ⟨.finish, rfl, (Option.some.inj h).symm⟩
  | clean => exact .inl ⟨.clean, rfl, (Option.some.inj h).symm⟩
  | save k => exact .inl ⟨.save k, rfl, (Option.some.inj h).symm⟩
  | restore k => exact .inl ⟨.restore k, rfl, (Option.some.inj h).symm⟩
  | drop k => exact .inl ⟨.drop k, rfl, (Option.some.inj h).symm⟩
  | reservedOpcode w => exact .inr (congrArg _ (Option.some.inj h))
  | wrCmd | rdStatus | rdBytesLo | rdBytesHi | rdDigest | wrMsg | rdCmd | rdMsg | rdReserved08 | rdReserved20 |
    wrStatus | wrBytes | wrDigest | wrReserved48 | wrReserved60 => cases h

theorem encode_toInstr (x : Cmd) : encode x.toInstr = .cmd (encodeCmd x) := by cases x <;> rfl

/-- The code of a command whose operand is out of range (R202). -/
def operandCode : Cmd → ErrCode
  | .update _ => .badLen
  | _ => .badSlot

/-- Of the word of a command, the block's decoder has only the range of the operand left to check (R76). -/
theorem decodeCmd_encodeCmd (x : Cmd) :
    decodeCmd Config.numSlots (encodeCmd x) = if x.toInstr.legal then .ok x else .error (operandCode x) := by
  cases x with
  | nop | reset | finish | clean => decide
  | update n => revert n; decide
  | save k | restore k | drop k => revert k; decide

theorem acceptWord_encodeCmd (x : Cmd) (s : State) :
    acceptWord (encodeCmd x) s = if x.toInstr.legal then runCmd x s else .error (operandCode x) := by
  rw [acceptWord, decodeCmd_encodeCmd]
  cases x.toInstr.legal <;> rfl

/-- A command instruction makes the same check of its operand as the block's decoder. -/
theorem exec_toInstr_eq_issue (x : Cmd) (s : State) :
    exec x.toInstr s = .next (issue (if x.toInstr.legal then runCmd x s else .error (operandCode x)) s) := by
  cases x with
  | nop | reset | finish | clean => rfl
  | update n => simp [Cmd.toInstr, exec, execUpdate, Instr.legal, runCmd, operandCode]
  | save k => simp [Cmd.toInstr, exec, execSave, ifSlot, Instr.legal, runCmd, operandCode]
  | restore k => simp [Cmd.toInstr, exec, execRestore, ifSlot, Instr.legal, runCmd, operandCode]
  | drop k => simp [Cmd.toInstr, exec, execDrop, ifSlot, Instr.legal, runCmd, operandCode]

theorem exec_toInstr_eq_wrCmd (x : Cmd) (s : State) : exec x.toInstr s = exec (.wrCmd (encodeCmd x)) s := by
  rw [exec_toInstr_eq_issue, exec, execWrCmd, acceptWord_encodeCmd]

/-- OP 0x8 to 0xF is no command (R75, R76). -/
theorem decodeCmd_of_reserved (numSlots : Nat) {c : Word} (h : 8 ≤ (opField c).toNat) :
    decodeCmd numSlots c = .error .badOp := by
  unfold decodeCmd
  dsimp only
  split
  case h_9 => rfl
  all_goals omega

theorem exec_reservedOpcode_eq_wrCmd {c : Word} (h : 8 ≤ (opField c).toNat) (s : State) :
    exec (.reservedOpcode c) s = exec (.wrCmd c) s := by
  simp only [exec, execReservedOpcode, execWrCmd, acceptWord, decodeCmd_of_reserved Config.numSlots h]

/-- Settles O8, for the two families of words. -/
theorem commandIsWriteOfItsWord : Obligations.CommandIsWriteOfItsWord := by
  intro i c s hwf hc
  obtain ⟨x, rfl, rfl⟩ | rfl := cmdWord_cases hc
  · exact ⟨encode_toInstr x, exec_toInstr_eq_wrCmd x s⟩
  · exact ⟨rfl, exec_reservedOpcode_eq_wrCmd (of_decide_eq_true hwf) s⟩

/-! ### Rejected words -/

/-- Settles O49: the rule of a reserved opcode is the rejection itself. -/
theorem reservedOpcodeIsRejected : Obligations.ReservedOpcodeIsRejected := by
  intro c s hb _
  exact congrArg Host.Outcome.next (issue_error .badOp hb)

/-- Where the mask of checked bits is all ones, a field of the masked word is the field of the word. -/
theorem extractLsb'_of_and_eq {c mask p : Word} {start len : Nat} (h : c &&& mask = p)
    (hm : mask.extractLsb' start len = BitVec.allOnes len) : c.extractLsb' start len = p.extractLsb' start len := by
  rw [← h, BitVec.extractLsb'_and, hm, BitVec.and_allOnes]

theorem plainBitsClear_of_and_eq {c p : Word} (h : c &&& 0xFFFFFFFF = p) (hp : plainBitsClear p = true) :
    plainBitsClear c = true := by
  rw [plainBitsClear, extractLsb'_of_and_eq h (by decide)]
  exact hp

theorem updateBitsClear_of_and_eq {c p : Word} (h : c &&& 0xFFFF80FF = p) (hp : updateBitsClear p = true) :
    updateBitsClear c = true := by
  rw [updateBitsClear, extractLsb'_of_and_eq h (by decide), extractLsb'_of_and_eq h (by decide)]
  exact hp

theorem slotBitsClear_of_and_eq {c p : Word} (h : c &&& 0xFFF0FFFF = p) (hp : slotBitsClear p = true) :
    slotBitsClear c = true := by
  rw [slotBitsClear, extractLsb'_of_and_eq h (by decide), extractLsb'_of_and_eq h (by decide)]
  exact hp

/-- A word that no row of the table reads has a bit set outside the fields of its opcode (R74, R75). -/
theorem reservedBitSet_of_decodeCmdRow_error {c : Word} {e : ErrCode} (h : decodeCmdRow c = .error e) :
    ReservedBitSet c := by
  intro hmask
  rw [← opField_toNat] at hmask
  unfold decodeCmdRow at h
  split at h
  case h_1 ho | h_2 ho | h_4 ho | h_5 ho =>
    rw [ho] at hmask
    simp [ifClear, plainBitsClear_of_and_eq hmask (by decide)] at h
  case h_3 ho =>
    rw [ho] at hmask
    simp [ifClear, updateBitsClear_of_and_eq hmask (by decide)] at h
  case h_6 ho | h_7 ho | h_8 ho =>
    rw [ho] at hmask
    simp [ifClear, slotBitsClear_of_and_eq hmask (by decide)] at h
  case h_9 => cases h

/-- Settles O11: the rejection is the decoder's only one, BAD_OP. -/
theorem malformedCommandWordIsRejected : Obligations.MalformedCommandWordIsRejected := by
  intro s c rest e hp hr hd
  obtain ⟨rfl, -⟩ := decodeCmd_of_decodeCmdRow_error (numSlots := Config.numSlots) hd
  refine ⟨reservedBitSet_of_decodeCmdRow_error hd, ?_⟩
  have hstep : step s = .next (issue (.error .badOp) { s with pending := rest }) := by
    simp only [step_of_pending_host hp hr, hostStep, hd]
  rw [hstep]
  by_cases hb : s.BUSY = true
  · rw [if_pos hb]
    exact congrArg Host.Outcome.next <| issue_busy (s := { s with pending := rest }) _ hb
  · rw [if_neg hb]
    have hready : s.BUSY = false := Bool.eq_false_of_not_eq_true hb
    exact congrArg Host.Outcome.next <| issue_error (s := { s with pending := rest }) _ hready

/-! ### The spellings of R80 -/

theorem wordOffset_toNat (off : BitVec 8) : (wordOffset off).toNat = off.toNat / 4 := by revert off; decide

theorem selector_toNat (we : BitVec 1) (woff : BitVec 6) : (we ++ woff).toNat = 64 * we.toNat + woff.toNat := by
  revert we woff; decide

/-- Settles O60: an offset's selector is its word offset behind `WE`, and a mnemonic and `WR CMD` of its word run
the same instruction. -/
theorem hostPrimitivesNameEveryOffset : Obligations.HostPrimitivesNameEveryOffset := by
  refine ⟨fun off v => ⟨⟨_, rfl, ?write⟩, _, _, rfl, ?read⟩, fun _ _ => ⟨rfl, rfl⟩,
    ⟨rfl, rfl, rfl, rfl, by decide, by decide⟩, ?mnemonic⟩
  case write => rw [selector_toNat, wordOffset_toNat]; rfl
  case read => rw [selector_toNat, wordOffset_toNat]; exact Nat.zero_add _
  case mnemonic =>
    intro c s
    have hdecode : decode (issueCmd c) = .ok c.toInstr := decodeCmdRow_encodeCmd c
    calc hostStep (issueCmd c) s = exec c.toInstr s := hostStep_of_decode_ok hdecode s
      _ = exec (.wrCmd (encodeCmd c)) s := exec_toInstr_eq_wrCmd c s
      _ = hostStep (wr .CMD (encodeCmd c)) s := rfl

end Sys2Proof.Machine
end

section
/-! The compression core, 40_compression_core.md R100 to R115: the round's functions and tables (O29, O57), the rounds in
order (O58), the datapath that counts them (O30), the blocks of a span (O31), and the known answers (O59). -/

namespace Sys2Proof.Machine

/-! ### The functions and the tables of a round -/

theorem fF_eq_select (b c d : Word) : fF b c d = (b &&& c) ||| (~~~b &&& d) := by
  ext i hi
  cases hb : b[i]
  · simp [fF, hb]
  · simp [fF, hb, Bool.xor_left_comm]

/-- `fG` is `fF` with `d` as the word that selects. -/
theorem fG_eq_select (b c d : Word) : fG b c d = (b &&& d) ||| (c &&& ~~~d) := by
  rw [BitVec.and_comm b, BitVec.and_comm c]
  exact fF_eq_select d b c

/-- Settles O29: `fF` bit by bit, by the bit that selects, and `fG` as `fF`. -/
theorem roundFunctionsAreBitSelects : Obligations.RoundFunctionsAreBitSelects :=
  fun b c d => ⟨fF_eq_select b c d, fG_eq_select b c d⟩

/-- Settles O57: the closed table, evaluated. -/
theorem roundTableIsTheSpecs : Obligations.RoundTableIsTheSpecs := by
  unfold Obligations.RoundTableIsTheSpecs
  decide

/-! ### The rounds in order -/

/-- The working variables before round `i` of a compression: loaded by R108, then rounds `0 .. i-1` (R110). -/
def workBefore (h : Vector Word 4) (blk : Vector Byte 64) (i : Nat) : Work :=
  rounds (decodeBlock blk) i (loadWork h)

theorem workBefore_succ (h : Vector Word 4) (blk : Vector Byte 64) (i : Nat) :
    workBefore h blk (i + 1) = roundStep (decodeBlock blk) i (workBefore h blk i) := rfl

theorem compress_eq_addWork (h : Vector Word 4) (blk : Vector Byte 64) :
    compress h blk = addWork h (workBefore h blk 64) := rfl

theorem appendByte_toNat {n : Nat} (x : BitVec n) (b : Byte) : (x ++ b).toNat = 2 ^ 8 * x.toNat + b.toNat := by
  rw [BitVec.toNat_append, ← Nat.shiftLeft_add_eq_or_of_lt b.isLt, Nat.shiftLeft_eq, Nat.mul_comm]

theorem le32_toNat (b0 b1 b2 b3 : Byte) :
    (le32 b0 b1 b2 b3).toNat = b0.toNat + 2 ^ 8 * b1.toNat + 2 ^ 16 * b2.toNat + 2 ^ 24 * b3.toNat := by
  simp only [le32, appendByte_toNat]
  omega

theorem wordOf_decodeBlock (blk : Vector Byte 64) {j : Nat} (hj : j < 16) :
    wordOf (decodeBlock blk) j =
      le32 (byteOf blk (4 * j)) (byteOf blk (4 * j + 1)) (byteOf blk (4 * j + 2)) (byteOf blk (4 * j + 3)) := by
  simp [wordOf, decodeBlock, hj]

theorem roundFn_eq_selects (i : Nat) (b c d : Word) :
    roundFn i b c d =
      if i < 16 then (b &&& c) ||| (~~~b &&& d)
      else if i < 32 then (b &&& d) ||| (c &&& ~~~d)
      else if i < 48 then b ^^^ c ^^^ d
      else c ^^^ (b ||| ~~~d) := by
  rw [roundFn, fF_eq_select, fG_eq_select, fH, fI]

/-- Settles O58: the sequences are the working variables after each number of rounds. -/
theorem compressRunsTheRoundsInOrder : Obligations.CompressRunsTheRoundsInOrder := by
  intro h blk
  refine ⟨wordOf (decodeBlock blk), fun i => (workBefore h blk i).a, fun i => (workBefore h blk i).b,
    fun i => (workBefore h blk i).c, fun i => (workBefore h blk i).d,
    fun j hj => ?words, ⟨rfl, rfl, rfl, rfl⟩, fun i _ => ?round, compress_eq_addWork h blk⟩
  case words => rw [wordOf_decodeBlock blk hj, le32_toNat]
  case round =>
    dsimp only
    rw [workBefore_succ, ← roundFn_eq_selects]
    exact ⟨rfl, rfl, rfl, rfl⟩

/-! ### The datapath -/

@[simp] theorem run_W (k : Nat) (r : CoreRegs) : (CoreRegs.run k r).W = r.W := by
  induction k with
  | zero => rfl
  | succ k ih => exact ih

@[simp] theorem run_round (k : Nat) (r : CoreRegs) : (CoreRegs.run k r).round = r.round + BitVec.ofNat 6 k := by
  induction k with
  | zero => exact (BitVec.add_zero _).symm
  | succ k ih => rw [BitVec.ofNat_add, ← BitVec.add_assoc, ← ih]; rfl

@[simp] theorem load_W (h : Vector Word 4) (blk : Vector Byte 64) (q : Nat) :
    (CoreRegs.load h blk q).W = decodeBlock blk := rfl

@[simp] theorem load_round (h : Vector Word 4) (blk : Vector Byte 64) (q : Nat) :
    (CoreRegs.load h blk q).round = 0 := rfl

theorem tick_work (r : CoreRegs) : r.tick.work = roundStep r.W r.round.toNat r.work := rfl

/-- The round counter does not wrap before round 64, so round `k` of the datapath is round `k` of R109. -/
theorem run_load_work (h : Vector Word 4) (blk : Vector Byte 64) (q : Nat) {k : Nat} (hk : k ≤ 64) :
    (CoreRegs.run k (CoreRegs.load h blk q)).work = workBefore h blk k := by
  induction k with
  | zero => rfl
  | succ k ih =>
    have hround : (CoreRegs.run k (CoreRegs.load h blk q)).round.toNat = k := by
      simp [Nat.mod_eq_of_lt (show k < 64 from hk)]
    rw [CoreRegs.run, tick_work, hround, run_W, load_W, ih (by omega), workBefore_succ]

@[simp] theorem absorbBlock_H (q : Nat) (blk : Vector Byte 64) (s : State) :
    (absorbBlock q blk s).H = compress s.H blk :=
  congrArg (addWork s.H) (run_load_work s.H blk q (Nat.le_refl 64))

/-- Settles O30: the datapath writes H and the core's registers, and its 64 rounds are those of Compress. -/
theorem datapathComputesCompress : Obligations.DatapathComputesCompress := by
  intro q blk s
  rw [← absorbBlock_H q blk s]
  rfl

/-! ### The blocks of a span -/

theorem absorbBlocks_succ_last (src : Nat → Byte) (pos q k : Nat) (s : State) :
    absorbBlocks src pos q (k + 1) s =
      absorbBlock (q + k) (blockAt src (pos + 64 * k)) (absorbBlocks src pos q k s) := by
  induction k generalizing pos q s with
  | zero => rfl
  | succ k ih =>
    have hpos : pos + 64 + 64 * k = pos + 64 * (k + 1) := by omega
    have hnum : q + 1 + k = q + (k + 1) := by omega
    rw [absorbBlocks, ih, hpos, hnum, absorbBlocks]

theorem absorbBlocks_H (src : Nat → Byte) (pos q k : Nat) (s : State) :
    (absorbBlocks src pos q k s).H = hashBlocks (fun j => src (pos + j)) s.H k := by
  induction k with
  | zero => rfl
  | succ k ih =>
    have hblk : blockAt src (pos + 64 * k) = blockAt (fun j => src (pos + j)) (64 * k) :=
      blockAt_congr fun j _ => by rw [Nat.add_assoc]
    rw [absorbBlocks_succ_last, absorbBlock_H, ih, hblk, hashBlocks]

/-- Settles O31: the whole blocks are the `len / 64` that the loop runs over. -/
theorem spanAbsorbsItsWholeBlocksInOrder : Obligations.SpanAbsorbsItsWholeBlocksInOrder := by
  intro src pos len s
  refine ⟨len / 64, by omega, by omega, ?_, rfl⟩
  rw [← absorbBlocks_H src pos 0 (len / 64) s]
  exact compressSpan_frame src pos len s

/-! ### The known answers -/

/-- The padded empty message is R111's example block. -/
theorem md5_nil : md5 [] = compress IV (blockAt (fun j => if j = 0 then 0x80 else 0) 0) :=
  congrArg (compress IV) (blockAt_congr (by decide))

/-- Settles O59: each vector is a closed computation of one or two compressions. -/
theorem knownAnswersHold : Obligations.KnownAnswersHold := by
  have example_block : compress IV (blockAt (fun j => if j = 0 then 0x80 else 0) 0) =
      #v[0xd98c1dd4, 0x04b2008f, 0x980980e9, 0x7e42f8ec] := by decide +kernel
  refine ⟨example_block, md5_nil.trans example_block, ?_, ?_, ?_, ?_, ?_⟩ <;> decide +kernel

end Sys2Proof.Machine
end

section
/-! How a command issued while BUSY=0 ends, 41_hasher_commands.md R140, and the commands that need no data: NOP, RESET,
CLEAN and FINISH of a finished hasher (O32, O33, O34, O41). -/

namespace Sys2Proof.Machine

/-! ### The end of a command -/

theorem exec_toInstr_of_ok {c : Cmd} {s u : State} (hb : s.BUSY = false) (hl : c.toInstr.legal = true)
    (hu : runCmd c s = .ok u) : exec c.toInstr s = .next (beginBusy u) := by
  rw [exec_toInstr_eq_issue, if_pos hl, hu, issue_ok u hb]

theorem exec_toInstr_of_error {c : Cmd} {s : State} {e : ErrCode} (hb : s.BUSY = false) (hl : c.toInstr.legal = true)
    (he : runCmd c s = .error e) : exec c.toInstr s = .next (raiseErr e s) := by
  rw [exec_toInstr_eq_issue, if_pos hl, he, issue_error e hb]

theorem exec_toInstr_of_not_legal {c : Cmd} {s : State} (hb : s.BUSY = false) (hl : ¬ c.toInstr.legal = true) :
    exec c.toInstr s = .next (raiseErr (operandCode c) s) := by
  rw [exec_toInstr_eq_issue, if_neg hl, issue_error _ hb]

/-! ### Commands that need no data -/

/-- A hasher with its initial values has absorbed the empty message (R142). -/
theorem absorbedStream_nil {s : State} (hH : s.H = IV) (hBL : s.BL = 0) (hBH : s.BH = 0) : AbsorbedStream [] s :=
  ⟨hH, congrArg BitVec.toNat hBL, hBH, fun j hj => absurd hj (Nat.not_lt_zero j)⟩

theorem finishCmd_finished {s : State} (hf : s.FIN = true) : finishCmd s = .ok s := if_pos hf

/-- Settles O32: the rule of NOP leaves the state to the end of the command. -/
theorem nopSetsErrToOkAndBeginsBusy : Obligations.NopSetsErrToOkAndBeginsBusy :=
  fun _ hb => exec_toInstr_of_ok (c := .nop) hb rfl rfl

/-- Settles O33: the rule of RESET has no condition, and its values are those of the empty message. -/
theorem resetReinitialisesTheHasher : Obligations.ResetReinitialisesTheHasher :=
  fun _ hb => ⟨_, exec_toInstr_of_ok (c := .reset) hb rfl rfl, rfl, absorbedStream_nil rfl rfl rfl⟩

/-- Settles O34: what CLEAN wipes reads 0, and the rest of its rule is that of RESET. -/
theorem cleanWipesAndReinitialises : Obligations.CleanWipesAndReinitialises :=
  fun _ hb => ⟨_, exec_toInstr_of_ok (c := .clean) hb rfl rfl, fun j _ => byteOf_replicate 128 j,
    fun j _ => ⟨wordOf_replicate 16 j, wordOf_replicate 16 j⟩, rfl, rfl, rfl, rfl, absorbedStream_nil rfl rfl rfl, rfl⟩

/-- Settles O41: FINISH finds nothing to do. -/
theorem finishAgainKeepsTheDigest : Obligations.FinishAgainKeepsTheDigest :=
  fun _ hb hf => exec_toInstr_of_ok (c := .finish) hb rfl (finishCmd_finished hf)

end Sys2Proof.Machine
end

section
/-! How long a digest lasts, 41_hasher_commands.md R148, 70_reset_and_hazards.md R244 (O26). -/

namespace Sys2Proof.Machine

/-- The commands that end the life of a digest (R148). -/
def Cmd.LosesDigest (c : Cmd) : Prop := c = .reset ∨ c = .clean ∨ ∃ k, c = .restore k

/-- The instruction issues the command, in one of its two spellings (R79, R80). -/
def IssuesCmd (i : Instr) (c : Cmd) : Prop := i = c.toInstr ∨ i = .wrCmd (encodeCmd c)

/-- A command that ends with the code OK has run. -/
theorem IssuesCmd.runs_of_ok {i : Instr} {c : Cmd} {s t : State} (hi : IssuesCmd i c) (hb : s.BUSY = false)
    (h : exec i s = .next t) (hok : t.ERR = .ok) : ∃ u, runCmd c s = .ok u ∧ t = beginBusy u := by
  have hc : exec c.toInstr s = .next t := by
    obtain rfl | rfl := hi
    · exact h
    · rw [exec_toInstr_eq_wrCmd, h]
  obtain ⟨hbusy, -⟩ | ⟨-, e, he, rfl⟩ | ⟨-, hran⟩ := exec_toInstr_cases hc
  · exact absurd hbusy (by simp [hb])
  · exact absurd hok he
  · exact hran

theorem runCmd_FIN_of_losesDigest {c : Cmd} {s u : State} (hc : Cmd.LosesDigest c) (hu : runCmd c s = .ok u) :
    u.FIN = false := by
  obtain rfl | rfl | ⟨k, rfl⟩ := hc
  · obtain rfl := Except.ok.inj hu; rfl
  · obtain rfl := Except.ok.inj hu; rfl
  · obtain ⟨-, rfl⟩ := restoreCmd_ok hu; rfl

/-- Of a finished hasher the other commands write neither H nor FIN. -/
theorem runCmd_keeps_digest {c : Cmd} {s u : State} (hf : s.FIN = true) (hc : ¬ Cmd.LosesDigest c)
    (hu : runCmd c s = .ok u) : u.H = s.H ∧ u.FIN = true := by
  have hframe := runCmd_frame hu
  constructor
  · obtain h | ⟨-, h⟩ | ⟨-, h⟩ | h := hframe.H
    · exact h
    · exact absurd hf (by simp [h])
    · exact absurd hf (by simp [h])
    · exact absurd h hc
  · obtain h | ⟨-, h⟩ | ⟨h, -⟩ := hframe.FIN
    · exact h.trans hf
    · exact h
    · exact absurd h hc

/-- RESET and CLEAN are never rejected, and for the rest the code OK is asked for. -/
theorem exec_FIN_of_losesDigest {i : Instr} {s t : State} (hb : s.BUSY = false) (h : exec i s = .next t)
    (hi : i = .reset ∨ i = .clean ∨ (∃ k, i = .restore k ∧ t.ERR = .ok) ∨
      (∃ c, i = .wrCmd c ∧ t.ERR = .ok ∧ (c = 0x1 ∨ c = 0x4 ∨ ∃ k : BitVec 4, c = encodeCmd (.restore k)))) :
    t.FIN = false := by
  have lost : ∀ c, IssuesCmd i c → Cmd.LosesDigest c → t.ERR = .ok → t.FIN = false := by
    intro c hic hc hok
    obtain ⟨u, hu, rfl⟩ := hic.runs_of_ok hb h hok
    exact (beginBusy_FIN u).trans (runCmd_FIN_of_losesDigest hc hu)
  obtain rfl | rfl | ⟨k, rfl, hok⟩ | ⟨c, rfl, hok, rfl | rfl | ⟨k, rfl⟩⟩ := hi
  · obtain rfl := Host.Outcome.next.inj ((exec_toInstr_of_ok (c := .reset) hb rfl rfl).symm.trans h)
    rfl
  · obtain rfl := Host.Outcome.next.inj ((exec_toInstr_of_ok (c := .clean) hb rfl rfl).symm.trans h)
    rfl
  · exact lost (.restore k) (.inl rfl) (.inr (.inr ⟨k, rfl⟩)) hok
  · exact lost .reset (.inr rfl) (.inl rfl) hok
  · exact lost .clean (.inr rfl) (.inr (.inl rfl)) hok
  · exact lost (.restore k) (.inr rfl) (.inr (.inr ⟨k, rfl⟩)) hok

theorem digestWord_of_live {s : State} (hf : s.FIN = false) (k : Nat) : digestWord s k = 0 := by
  simp [digestWord, hf]

/-- Settles O26: the command that ran, if any, is one that ends the life of a digest or one that writes neither H nor
FIN. -/
theorem digestLastsUntilResetCleanOrRestore : Obligations.DigestLastsUntilResetCleanOrRestore := by
  intro i s t hf hb h
  refine ⟨fun hi => ?lost, fun hreset hclean hrestore hword => ?kept⟩
  case lost =>
    have hlive : t.FIN = false := exec_FIN_of_losesDigest hb h hi
    exact ⟨hlive, digestWord_of_live (s := complete t) hlive⟩
  case kept =>
    obtain ⟨-, ⟨hbusy, -⟩ | ⟨-, e, -, rfl⟩ | ⟨-, c, u, hi, hu, rfl⟩⟩ |
      ⟨-, -, ⟨_, _, -, -, rfl⟩ | ⟨_, _, -, -, rfl⟩ | ⟨-, e⟩⟩ := exec_cases h
    · exact absurd hbusy (by simp [hb])
    · exact ⟨rfl, hf⟩
    · suffices hc : ¬ Cmd.LosesDigest c from (runCmd_keeps_digest hf hc hu :)
      rintro (rfl | rfl | ⟨k, rfl⟩)
      · obtain rfl | rfl := hi
        · exact hreset rfl
        · exact (hword _ rfl).1 rfl
      · obtain rfl | rfl := hi
        · exact hclean rfl
        · exact (hword _ rfl).2.1 rfl
      · obtain rfl | rfl := hi
        · exact hrestore k rfl rfl
        · exact (hword _ rfl).2.2 ⟨k, rfl⟩ rfl
    · exact ⟨rfl, hf⟩
    · exact ⟨rfl, hf⟩
    · rw [e]
      exact ⟨rfl, hf⟩

end Sys2Proof.Machine
end

section
/-! The save slots, 41_hasher_commands.md R150, R152, R155: SAVE, RESTORE and DROP (O44, O45, O46), their rejections
(O47), and save and restore fidelity (O48). -/

namespace Sys2Proof.Machine

/-! ### The rules of the slot commands -/

theorem saveCmd_live {s : State} (k : BitVec 4) (hf : s.FIN = false) :
    saveCmd k s = .ok (setSlot k.toNat (snapshot s) s) := by
  simp [saveCmd, hf]

theorem saveCmd_finished {s : State} (k : BitVec 4) (hf : s.FIN = true) : saveCmd k s = .error .saveFinished := if_pos hf

theorem restoreCmd_valid {k : BitVec 4} {s : State} (hv : (slotOf s k.toNat).valid = true) :
    restoreCmd k s = .ok { s with
      H := (slotOf s k.toNat).H
      buf := fill s.buf 0 64 (byteOf (slotOf s k.toNat).buf)
      BL := (slotOf s k.toNat).BL
      BH := (slotOf s k.toNat).BH
      FIN := false } := if_pos hv

theorem restoreCmd_empty {k : BitVec 4} {s : State} (hv : (slotOf s k.toNat).valid = false) :
    restoreCmd k s = .error .emptySlot := by
  simp [restoreCmd, hv]

theorem slotOf_setSlot_same {k : Nat} (hk : k < Config.numSlots) (x : Slot) (s : State) :
    slotOf (setSlot k x s) k = x := by
  rw [slotOf_setSlot, if_pos ⟨rfl, hk⟩]

theorem slotOf_setSlot_ne {k j : Nat} (h : j ≠ k) (x : Slot) (s : State) :
    slotOf (setSlot k x s) j = slotOf s j := by
  rw [slotOf_setSlot, if_neg fun hc => h hc.1.symm]

/-- The snapshot holds the lower half of the buffer (R150). -/
theorem byteOf_snapshot_buf (s : State) {j : Nat} (hj : j < 64) : byteOf (snapshot s).buf j = byteOf s.buf j := by
  rw [snapshot, byteOf_blockAt _ _ _ hj, Nat.zero_add]

/-! ### The commands -/

/-- Settles O44: the slot holds the snapshot, and SAVE writes nothing else. -/
theorem saveTakesASnapshot : Obligations.SaveTakesASnapshot := by
  intro k s hb hf hk
  have hslot : slotOf (beginBusy (setSlot k.toNat (snapshot s) s)) k.toNat = snapshot s := slotOf_setSlot_same hk _ s
  refine ⟨_, exec_toInstr_of_ok (c := .save k) hb (decide_eq_true hk) (saveCmd_live k hf), ?_⟩
  rw [hslot]
  exact ⟨rfl, rfl, rfl, rfl, fun j hj => byteOf_snapshot_buf s hj, fun x hx => slotOf_setSlot_ne hx _ s, rfl⟩

/-- Settles O45: the lower half of the buffer is the slot's, the upper half the hasher's own. -/
theorem restoreReloadsTheSlot : Obligations.RestoreReloadsTheSlot := by
  intro k s hb hk hv
  refine ⟨_, exec_toInstr_of_ok (c := .restore k) hb (decide_eq_true hk) (restoreCmd_valid hv),
    fun j hj => ?lower, fun j hj => ?upper, rfl⟩
  case lower => rw [beginBusy_buf, byteOf_fill, if_pos (by omega)]
  case upper => rw [beginBusy_buf, byteOf_fill, if_neg (by omega)]

/-- Settles O46: the slot is empty, and DROP writes nothing else. -/
theorem dropClearsTheSlot : Obligations.DropClearsTheSlot := by
  intro k s hb hk
  have hslot : slotOf (beginBusy (setSlot k.toNat Slot.empty s)) k.toNat = Slot.empty := slotOf_setSlot_same hk _ s
  refine ⟨_, exec_toInstr_of_ok (c := .drop k) hb (decide_eq_true hk) rfl, ?_⟩
  rw [hslot]
  exact ⟨rfl, rfl, rfl, fun j _ => wordOf_replicate 4 j, fun j _ => byteOf_replicate 64 j,
    fun x hx => slotOf_setSlot_ne hx _ s, rfl⟩

/-- Settles O47: the index is checked before the rule, which has one code of its own. -/
theorem slotCommandsAreRejectedByTheirErrors : Obligations.SlotCommandsAreRejectedByTheirErrors := by
  refine fun k s hb => ⟨fun hk => ?badSlot, fun hk hf => ?finished, fun hk hv => ?empty⟩
  case badSlot =>
    have hl : ¬ decide (k.toNat < Config.numSlots) = true := by simpa using hk
    exact ⟨exec_toInstr_of_not_legal (c := .save k) hb hl, exec_toInstr_of_not_legal (c := .restore k) hb hl,
      exec_toInstr_of_not_legal (c := .drop k) hb hl⟩
  case finished => exact exec_toInstr_of_error (c := .save k) hb (decide_eq_true hk) (saveCmd_finished k hf)
  case empty => exact exec_toInstr_of_error (c := .restore k) hb (decide_eq_true hk) (restoreCmd_empty hv)

/-! ### Save and restore -/

/-- The absorbed message is told by H, BL, BH and the buffered bytes alone (R144). -/
theorem AbsorbedStream.of_same {m : List Byte} {s t : State} (hs : AbsorbedStream m s) (hH : t.H = s.H)
    (hBL : t.BL = s.BL) (hBH : t.BH = s.BH) (hbuf : ∀ j, j < s.BL.toNat → byteOf t.buf j = byteOf s.buf j) :
    AbsorbedStream m t := by
  obtain ⟨sH, sBL, sBH, sbuf⟩ := hs
  exact ⟨hH.trans sH, by rw [hBL, sBL], hBH.trans sBH, fun j hj => (hbuf j (by omega)).trans (sbuf j hj)⟩

/-- Settles O48: RESTORE reloads what SAVE copied, the buffered bytes included, as BL is below 64. -/
theorem restoreBringsBackTheSavedStream : Obligations.RestoreBringsBackTheSavedStream := by
  intro k m s t u hb hf hk hm ht hub hslot
  obtain ⟨t', ht', hvalid, hH, hBL, hBH, hbuf, -, -⟩ := saveTakesASnapshot k s hb hf hk
  obtain rfl := Host.Outcome.next.inj (ht'.symm.trans ht)
  obtain ⟨v, hv, vbuf, -, hframe⟩ := restoreReloadsTheSlot k u hub hk (hslot ▸ hvalid)
  rw [hslot] at vbuf hframe
  refine ⟨v, hv, by rw [hframe], hm.of_same ?_ ?_ ?_ fun j hj => ?_⟩
  · rw [hframe]; exact hH
  · rw [hframe]; exact hBL
  · rw [hframe]; exact hBH
  · have hj64 : j < 64 := Nat.lt_trans hj s.BL.isLt
    exact (vbuf j hj64).trans (hbuf j hj64)

end Sys2Proof.Machine
end

section
/-! UPDATE, 41_hasher_commands.md R143, R144: what it leaves (O35), that it absorbs the window byte by byte (O36), that a
split changes nothing (O37), and the message absorbed (O38). -/

namespace Sys2Proof.Machine

/-! ### The rule of UPDATE -/

/-- The bytes UPDATE takes, in order: the buffered ones, then the window's (R143). -/
def pendingByte (s : State) (j : Nat) : Byte :=
  if j < s.BL.toNat then byteOf s.buf j else msgByte s.MSG (j - s.BL.toNat)

theorem pendingByte_of_lt {s : State} {j : Nat} (h : j < s.BL.toNat) : pendingByte s j = byteOf s.buf j := if_pos h

theorem pendingByte_of_le {s : State} {j : Nat} (h : s.BL.toNat ≤ j) :
    pendingByte s j = msgByte s.MSG (j - s.BL.toNat) := if_neg (Nat.not_lt.mpr h)

theorem exec_update_live {n : BitVec 7} {s : State} (hb : s.BUSY = false) (hf : s.FIN = false) (hn : n.toNat ≤ 64) :
    ∃ u, updateCmd n s = .ok u ∧ exec (.update n) s = .next (beginBusy u) := by
  have hu : ∃ u, updateCmd n s = .ok u := ⟨_, if_neg (by simp [hf])⟩
  obtain ⟨u, hu⟩ := hu
  exact ⟨u, hu, exec_toInstr_of_ok (c := .update n) hb (decide_eq_true hn) hu⟩

/-- A window that does not fill the block only goes into the buffer. -/
theorem updateCmd_of_partial {n : BitVec 7} {s u : State} (hu : updateCmd n s = .ok u)
    (h : s.BL.toNat + n.toNat < 64) :
    u.H = s.H ∧ u.core = s.core ∧ ∀ j, byteOf u.buf j =
      if s.BL.toNat ≤ j ∧ j < s.BL.toNat + n.toNat then msgByte s.MSG (j - s.BL.toNat) else byteOf s.buf j := by
  rw [updateCmd_short (updateCmd_frame hu).1 h] at hu
  obtain rfl := Except.ok.inj hu
  refine ⟨rfl, rfl, fun j => ?_⟩
  rw [byteOf_fill]
  exact if_congr (by omega) rfl rfl

/-- A window that fills the block has it compressed, and the rest of the window starts the buffer. -/
theorem updateCmd_of_block {n : BitVec 7} {s u : State} (hu : updateCmd n s = .ok u)
    (h : 64 ≤ s.BL.toNat + n.toNat) (hn : n.toNat ≤ 64) :
    u.H = compress s.H (blockAt (pendingByte s) 0) ∧ ∀ j, byteOf u.buf j =
      if j < s.BL.toNat + n.toNat - 64 then msgByte s.MSG (64 - s.BL.toNat + j)
      else if s.BL.toNat = 0 then byteOf s.buf j
      else if s.BL.toNat ≤ j ∧ j < 64 then msgByte s.MSG (j - s.BL.toNat) else byteOf s.buf j := by
  have hf : s.FIN = false := (updateCmd_frame hu).1
  have hBL : s.BL.toNat < 64 := s.BL.isLt
  by_cases hb : s.BL.toNat = 0
  · rw [updateCmd_whole hf hb (by omega)] at hu
    obtain rfl := Except.ok.inj hu
    refine ⟨?_, fun j => ?_⟩
    · rw [absorbBlock_H]
      refine congrArg _ (blockAt_congr fun j _ => ?_)
      rw [pendingByte_of_le (by omega), hb, Nat.sub_zero]
    · rw [if_neg (by omega), if_pos hb]
  · rw [updateCmd_fills hf hb h hn] at hu
    obtain rfl := Except.ok.inj hu
    refine ⟨?_, fun j => ?_⟩
    · rw [absorbBlock_H]
      refine congrArg _ (blockAt_congr fun j hj => ?_)
      rw [byteOf_fill, Nat.zero_add]
      by_cases hlt : j < s.BL.toNat
      · rw [pendingByte_of_lt hlt, if_neg (by omega)]
      · rw [pendingByte_of_le (by omega), if_pos (by omega)]
    · rw [byteOf_fill, byteOf_fill, if_neg hb]
      exact if_congr (by omega) rfl (if_congr (by omega) rfl rfl)

/-- Settles O35, by whether the window fills the block. -/
theorem updateAbsorbsTheWindow : Obligations.UpdateAbsorbsTheWindow := by
  intro n s hb hf hn used
  obtain ⟨u, hu, hexec⟩ := exec_update_live hb hf hn
  have hBL : s.BL.toNat < 64 := s.BL.isLt
  have hkept := updateCmd_of_partial hu
  have hblock := fun h => updateCmd_of_block hu h hn
  refine ⟨beginBusy u, hexec, (updateCmd_BH hu :), (updateCmd_BL hu :), congrArg beginBusy (updateCmd_frame hu).2,
    fun j hj => ?upper, fun h => ?short, fun h => ?block⟩
  case upper =>
    rw [beginBusy_buf]
    by_cases h : s.BL.toNat + n.toNat < 64
    · rw [(hkept h).2.2, if_neg (by omega)]
    · rw [(hblock (by omega)).2, if_neg (by omega), if_neg (c := _ ∧ _) (by omega), ite_self]
  case short =>
    obtain ⟨hH, hcore, hbuf⟩ := hkept h
    exact ⟨hH, hcore, fun j _ => hbuf j⟩
  case block =>
    obtain ⟨hH, hbuf⟩ := hblock h
    refine ⟨hH, fun j hj => ?_⟩
    rw [beginBusy_buf, hbuf]
    simp only [hj, and_true]
    rfl

/-! ### The bytes a hasher has absorbed -/

/-- From the hash state `h` the hasher has absorbed the first `N` bytes of a source: their whole blocks are in H, the
others in the buffer. -/
structure HoldsPrefix (h : Vector Word 4) (src : Nat → Byte) (N : Nat) (s : State) : Prop where
  H : s.H = hashBlocks src h (N / 64)
  BL : s.BL.toNat = N % 64
  buf : ∀ j, j < N % 64 → byteOf s.buf j = src (64 * (N / 64) + j)

theorem absorbedStream_iff {m : List Byte} {s : State} :
    AbsorbedStream m s ↔ HoldsPrefix IV (listByte m) m.length s ∧ s.BH = BitVec.ofNat 64 m.length :=
  ⟨fun ⟨hH, hBL, hBH, hbuf⟩ => ⟨⟨hH, hBL, hbuf⟩, hBH⟩, fun ⟨⟨hH, hBL, hbuf⟩, hBH⟩ => ⟨hH, hBL, hBH, hbuf⟩⟩

theorem hashBlocks_congr {src src' : Nat → Byte} (h : Vector Word 4) {k : Nat}
    (hsrc : ∀ j, j < 64 * k → src j = src' j) : hashBlocks src h k = hashBlocks src' h k := by
  induction k with
  | zero => rfl
  | succ k ih =>
    have hblk : blockAt src (64 * k) = blockAt src' (64 * k) := blockAt_congr fun j hj => hsrc _ (by omega)
    rw [hashBlocks, hashBlocks, ih fun j hj => hsrc j (by omega), hblk]

theorem HoldsPrefix.congr {h : Vector Word 4} {src src' : Nat → Byte} {N : Nat} {s : State}
    (hs : HoldsPrefix h src N s) (hsrc : ∀ j, j < N → src j = src' j) : HoldsPrefix h src' N s where
  H := hs.H.trans (hashBlocks_congr h fun j hj => hsrc j (by omega))
  BL := hs.BL
  buf j hj := (hs.buf j hj).trans (hsrc _ (by omega))

/-- What has been absorbed tells H, BL and the buffered bytes. -/
theorem HoldsPrefix.unique {h : Vector Word 4} {src : Nat → Byte} {N : Nat} {s t : State} (hs : HoldsPrefix h src N s)
    (ht : HoldsPrefix h src N t) : s.H = t.H ∧ s.BL = t.BL ∧ ∀ j, j < s.BL.toNat → byteOf s.buf j = byteOf t.buf j :=
  ⟨hs.H.trans ht.H.symm, BitVec.eq_of_toNat_eq (hs.BL.trans ht.BL.symm),
    fun j hj => (hs.buf j (hs.BL ▸ hj)).trans (ht.buf j (hs.BL ▸ hj)).symm⟩

/-- A hasher with the same H, BL and buffered bytes has absorbed the same. -/
theorem HoldsPrefix.of_same {h : Vector Word 4} {src : Nat → Byte} {N : Nat} {s t : State} (hs : HoldsPrefix h src N s)
    (hH : t.H = s.H) (hBL : t.BL = s.BL) (hbuf : ∀ j, j < t.BL.toNat → byteOf t.buf j = byteOf s.buf j) :
    HoldsPrefix h src N t where
  H := hH.trans hs.H
  BL := hBL ▸ hs.BL
  buf j hj := (hbuf j (by rw [hBL, hs.BL]; exact hj)).trans (hs.buf j hj)

/-- Any hasher, from its own hash state: nothing but the buffered bytes. -/
theorem holdsPrefix_pendingByte (s : State) : HoldsPrefix s.H (pendingByte s) s.BL.toNat s := by
  have hBL : s.BL.toNat < 64 := s.BL.isLt
  refine ⟨by rw [Nat.div_eq_of_lt hBL]; rfl, (Nat.mod_eq_of_lt hBL).symm, fun j hj => ?_⟩
  rw [Nat.div_eq_of_lt hBL, Nat.mul_zero, Nat.zero_add]
  exact (pendingByte_of_lt (by omega)).symm

/-! ### The byte-serial definition -/

/-- The next byte joins the buffered ones, and a block that fills is compressed (R144). -/
theorem HoldsPrefix.after_absorbByte {h : Vector Word 4} {src : Nat → Byte} {N : Nat} {s : State}
    (hs : HoldsPrefix h src N s) : HoldsPrefix h src (N + 1) (absorbByte (src N) s) := by
  have hbuf : ∀ j, j ≤ N % 64 →
      byteOf (fill s.buf s.BL.toNat (s.BL.toNat + 1) fun _ => src N) j = src (64 * (N / 64) + j) := by
    intro j hj
    rw [byteOf_fill, hs.BL]
    by_cases hjN : j = N % 64
    · rw [if_pos (by omega), hjN, Nat.div_add_mod]
    · rw [if_neg (by omega), hs.buf j (by omega)]
  have hBL := hs.BL
  unfold absorbByte
  dsimp only
  split
  · have hdiv : (N + 1) / 64 = N / 64 + 1 := by omega
    have hmod : (N + 1) % 64 = 0 := by omega
    refine ⟨?_, hmod.symm, fun j hj => absurd hj (by omega)⟩
    rw [hdiv, hashBlocks, ← hs.H]
    refine congrArg (compress s.H) (blockAt_congr fun j hj => ?_)
    rw [Nat.zero_add, hbuf j (by omega)]
  · have hdiv : (N + 1) / 64 = N / 64 := by omega
    have hmod : (N + 1) % 64 = N % 64 + 1 := by omega
    have hnext : (s.BL + 1).toNat = s.BL.toNat + 1 := by
      exact (BitVec.toNat_add _ _).trans (Nat.mod_eq_of_lt (show s.BL.toNat + 1 < 2 ^ 6 by omega))
    refine ⟨by rw [hdiv]; exact hs.H, by rw [hmod, ← hBL]; exact hnext, fun j hj => ?_⟩
    rw [hdiv]
    exact hbuf j (by omega)

theorem HoldsPrefix.after_absorbWindow {h : Vector Word 4} {src : Nat → Byte} {N n : Nat} {s : State}
    (hs : HoldsPrefix h src N s) (hsrc : ∀ p, p < n → src (N + p) = msgByte s.MSG p) :
    HoldsPrefix h src (N + n) (absorbWindow n s) := by
  induction n with
  | zero => exact hs
  | succ n ih =>
    rw [absorbWindow, ← hsrc n (Nat.lt_succ_self n)]
    exact (ih fun p hp => hsrc p (Nat.lt_succ_of_lt hp)).after_absorbByte

theorem HoldsPrefix.after_updateSerial {h : Vector Word 4} {src : Nat → Byte} {N n : Nat} {s : State}
    (hs : HoldsPrefix h src N s) (hsrc : ∀ p, p < n → src (N + p) = msgByte s.MSG p) :
    HoldsPrefix h src (N + n) (updateSerial n s) :=
  HoldsPrefix.after_absorbWindow (s := { s with BH := s.BH + BitVec.ofNat 64 n }) ⟨hs.H, hs.BL, hs.buf⟩ hsrc

theorem absorbByte_BH (x : Byte) (s : State) : (absorbByte x s).BH = s.BH := by
  unfold absorbByte
  dsimp only
  split <;> rfl

theorem absorbWindow_BH (n : Nat) (s : State) : (absorbWindow n s).BH = s.BH := by
  induction n with
  | zero => rfl
  | succ n ih => rw [absorbWindow, absorbByte_BH, ih]

theorem updateSerial_BH (n : Nat) (s : State) : (updateSerial n s).BH = s.BH + BitVec.ofNat 64 n :=
  absorbWindow_BH n _

/-! ### UPDATE and the byte-serial definition -/

theorem updateCmd_BH_eq_add {n : BitVec 7} {s u : State} (hu : updateCmd n s = .ok u) :
    u.BH = s.BH + BitVec.ofNat 64 n.toNat := by
  apply BitVec.eq_of_toNat_eq
  rw [updateCmd_BH hu, BitVec.toNat_add, BitVec.toNat_ofNat, Nat.add_mod_mod]

/-- UPDATE takes the buffered bytes and the window's in order. -/
theorem updateCmd_holds_pendingByte {n : BitVec 7} {s u : State} (hn : n.toNat ≤ 64) (hu : updateCmd n s = .ok u) :
    HoldsPrefix s.H (pendingByte s) (s.BL.toNat + n.toNat) u := by
  have hBL : s.BL.toNat < 64 := s.BL.isLt
  by_cases h : s.BL.toNat + n.toNat < 64
  · obtain ⟨hH, -, hbuf⟩ := updateCmd_of_partial hu h
    refine ⟨by rw [Nat.div_eq_of_lt h]; exact hH, updateCmd_BL hu, fun j hj => ?_⟩
    rw [hbuf, Nat.div_eq_of_lt h, Nat.mul_zero, Nat.zero_add]
    by_cases hlt : j < s.BL.toNat
    · rw [pendingByte_of_lt hlt, if_neg (by omega)]
    · rw [pendingByte_of_le (by omega), if_pos (by omega)]
  · obtain ⟨hH, hbuf⟩ := updateCmd_of_block hu (by omega) hn
    have hdiv : (s.BL.toNat + n.toNat) / 64 = 1 := by omega
    refine ⟨by rw [hdiv]; exact hH, updateCmd_BL hu, fun j hj => ?_⟩
    rw [hbuf, hdiv, if_pos (by omega), pendingByte_of_le (by omega)]
    exact congrArg _ (by omega)

theorem updateCmd_eq_updateSerial {n : BitVec 7} {s u : State} (hn : n.toNat ≤ 64) (hu : updateCmd n s = .ok u) :
    u.H = (updateSerial n.toNat s).H ∧ u.BL = (updateSerial n.toNat s).BL ∧
      ∀ j, j < u.BL.toNat → byteOf u.buf j = byteOf (updateSerial n.toNat s).buf j := by
  refine (updateCmd_holds_pendingByte hn hu).unique ((holdsPrefix_pendingByte s).after_updateSerial fun p _ => ?_)
  rw [pendingByte_of_le (Nat.le_add_right _ _), Nat.add_sub_cancel_left]

/-- Settles O36: both have absorbed the buffered bytes and then the window's. -/
theorem updateMatchesByteSerialAbsorption : Obligations.UpdateMatchesByteSerialAbsorption := by
  intro n s hb hf hn
  obtain ⟨u, hu, hexec⟩ := exec_update_live hb hf hn
  obtain ⟨hH, hBL, hbuf⟩ := updateCmd_eq_updateSerial hn hu
  exact ⟨beginBusy u, hexec, hH, hBL, (updateCmd_BH_eq_add hu).trans (updateSerial_BH _ s).symm, hbuf⟩

/-- UPDATE appends the window bytes to what has been absorbed from any hash state, as the byte-serial definition does. -/
theorem HoldsPrefix.after_updateCmd {h : Vector Word 4} {src : Nat → Byte} {N : Nat} {n : BitVec 7} {s u : State}
    (hs : HoldsPrefix h src N s) (hn : n.toNat ≤ 64) (hsrc : ∀ p, p < n.toNat → src (N + p) = msgByte s.MSG p)
    (hu : updateCmd n s = .ok u) : HoldsPrefix h src (N + n.toNat) u := by
  obtain ⟨hH, hBL, hbuf⟩ := updateCmd_eq_updateSerial hn hu
  exact (hs.after_updateSerial hsrc).of_same hH hBL hbuf

/-! ### Splitting an update -/

theorem updateCmd_of_exec {n : BitVec 7} {s t : State} (hb : s.BUSY = false) (hf : s.FIN = false) (hn : n.toNat ≤ 64)
    (h : exec (.update n) s = .next t) : ∃ u, updateCmd n s = .ok u ∧ t = beginBusy u := by
  obtain ⟨u, hu, hexec⟩ := exec_update_live hb hf hn
  exact ⟨u, hu, Host.Outcome.next.inj (h.symm.trans hexec)⟩

/-- Between the two updates the window is reloaded (`w`): its first bytes are then the ones still to absorb. -/
theorem updateCmd_split {a b c : BitVec 7} {s t u w v : State} (hc : c.toNat = a.toNat + b.toNat)
    (hle : c.toNat ≤ 64) (ht : updateCmd c s = .ok t) (hu : updateCmd a s = .ok u) (hv : updateCmd b w = .ok v)
    (hH : w.H = u.H) (hBL : w.BL = u.BL) (hBH : w.BH = u.BH) (hbuf : w.buf = u.buf)
    (hwindow : ∀ p, p < b.toNat → msgByte w.MSG p = msgByte s.MSG (a.toNat + p)) :
    v.H = t.H ∧ v.BL = t.BL ∧ v.BH = t.BH ∧ ∀ j, j < v.BL.toNat → byteOf v.buf j = byteOf t.buf j := by
  have hpt := updateCmd_holds_pendingByte hle ht
  have hpw := (updateCmd_holds_pendingByte (by omega) hu).of_same hH hBL fun j _ => by rw [hbuf]
  have hpv := hpw.after_updateCmd (by omega) (fun p hp => ?bytes) hv
  case bytes =>
    rw [pendingByte_of_le (by omega), Nat.add_assoc, Nat.add_sub_cancel_left]
    exact (hwindow p hp).symm
  rw [Nat.add_assoc, ← hc] at hpv
  obtain ⟨vH, vBL, vbuf⟩ := hpv.unique hpt
  refine ⟨vH, vBL, ?_, vbuf⟩
  calc v.BH = s.BH + BitVec.ofNat 64 a.toNat + BitVec.ofNat 64 b.toNat := by
        rw [updateCmd_BH_eq_add hv, hBH, updateCmd_BH_eq_add hu]
    _ = s.BH + BitVec.ofNat 64 c.toNat := by rw [BitVec.add_assoc, ← BitVec.ofNat_add, hc]
    _ = t.BH := (updateCmd_BH_eq_add ht).symm

theorem updateLength_toNat {k : Nat} (hk : k ≤ 64) : (BitVec.ofNat 7 k).toNat = k :=
  Nat.mod_eq_of_lt (Nat.lt_of_le_of_lt hk (by decide))

/-- Settles O37: either way the hasher has absorbed its buffered bytes and `a + b` bytes of the window. -/
theorem splittingAnUpdateChangesNothing : Obligations.SplittingAnUpdateChangesNothing := by
  intro a b s t u v window hb hf hab hwindow ht hu hv
  have ha := updateLength_toNat (show a ≤ 64 by omega)
  have hb' := updateLength_toNat (show b ≤ 64 by omega)
  have hab' := updateLength_toNat hab
  obtain ⟨t', ht', rfl⟩ := updateCmd_of_exec hb hf (by omega) ht
  obtain ⟨u', hu', rfl⟩ := updateCmd_of_exec hb hf (by omega) hu
  have huf : u'.FIN = false := by rw [(updateCmd_frame hu').2]; exact hf
  obtain ⟨v', hv', rfl⟩ := updateCmd_of_exec (s := { beginBusy u' with BUSY := false, MSG := window }) rfl huf
    (by omega) hv
  obtain ⟨hH, hBL, hBH, hbuf⟩ := updateCmd_split (by omega) (by omega) ht' hu' hv' rfl rfl rfl rfl (by rwa [ha, hb'])
  exact ⟨hH, hBL, hBH, fun j hj => hbuf j (hBL ▸ hj)⟩

/-! ### The absorbed message -/

theorem listByte_append_left {l : List Byte} (l' : List Byte) {j : Nat} (h : j < l.length) :
    listByte (l ++ l') j = listByte l j := List.getD_append _ _ _ _ h

theorem listByte_append_right {l : List Byte} (l' : List Byte) {j : Nat} (h : l.length ≤ j) :
    listByte (l ++ l') j = listByte l' (j - l.length) := List.getD_append_right _ _ _ _ h

@[simp] theorem length_windowBytes (MSG : Vector Word 16) (n : Nat) : (windowBytes MSG n).length = n := by
  simp [windowBytes]

theorem listByte_windowBytes (MSG : Vector Word 16) {n p : Nat} (h : p < n) :
    listByte (windowBytes MSG n) p = msgByte MSG p := by
  simp [listByte, windowBytes, h]

/-- Settles O38: the message grows by the bytes that UPDATE appends to what has been absorbed. -/
theorem updateExtendsTheAbsorbedStream : Obligations.UpdateExtendsTheAbsorbedStream := by
  intro m n s hb hf hn hm
  obtain ⟨hp, hBH⟩ := absorbedStream_iff.mp hm
  obtain ⟨u, hu, hexec⟩ := exec_update_live hb hf hn
  have huf : u.FIN = false := by rw [(updateCmd_frame hu).2]; exact hf
  have hlen : (m ++ windowBytes s.MSG n.toNat).length = m.length + n.toNat := by simp
  have hpu := (hp.congr fun j hj => (listByte_append_left (windowBytes s.MSG n.toNat) hj).symm).after_updateCmd hn
    (fun p hpn => ?bytes) hu
  case bytes => rw [listByte_append_right _ (by omega), Nat.add_sub_cancel_left, listByte_windowBytes _ hpn]
  refine ⟨beginBusy u, hexec, huf, rfl, absorbedStream_iff.mpr ⟨?_, ?_⟩⟩
  · rw [hlen]
    exact ⟨hpu.H, hpu.BL, hpu.buf⟩
  · rw [hlen, beginBusy_BH, updateCmd_BH_eq_add hu, hBH, BitVec.ofNat_add]

end Sys2Proof.Machine
end

section
/-! FINISH, 41_hasher_commands.md R145, R146: the padded stream (O43), what FINISH leaves (O40), and the digest of the
absorbed message (O42). -/

namespace Sys2Proof.Machine

/-! ### The length field -/

/-- A byte below bit `w` is not touched by a reduction modulo `2^w`. -/
theorem ofNat_mod_div_byte (x : Nat) {w i : Nat} (h : 8 * i + 8 ≤ w) :
    BitVec.ofNat 8 (x % 2 ^ w / 2 ^ (8 * i)) = BitVec.ofNat 8 (x / 2 ^ (8 * i)) := by
  apply BitVec.eq_of_getLsbD_eq
  intro b hb
  have hbit : b + 8 * i < w := by omega
  simp [BitVec.getLsbD_ofNat, Nat.testBit_div_two_pow, Nat.testBit_mod_two_pow, hbit]

theorem laneOf_ofNat (x : Nat) {i : Nat} (hi : i < 4) :
    laneOf (BitVec.ofNat 32 x) i = BitVec.ofNat 8 (x / 2 ^ (8 * i)) := by
  rw [← ofNat_mod_div_byte x (show 8 * i + 8 ≤ 32 by omega)]
  apply BitVec.eq_of_toNat_eq
  simp [laneOf, BitVec.extractLsb'_toNat, Nat.shiftRight_eq_div_pow]

/-- The lanes of the two words of a number, the low word first (R9). -/
theorem laneOf_low_high (x : Nat) {i : Nat} (hi : i < 8) :
    (if i < 4 then laneOf (BitVec.ofNat 32 x) i else laneOf (BitVec.ofNat 32 (x / 2 ^ 32)) (i - 4)) =
      BitVec.ofNat 8 (x / 2 ^ (8 * i)) := by
  split
  · exact laneOf_ofNat x ‹_›
  · have hsum : 32 + 8 * (i - 4) = 8 * i := by omega
    rw [laneOf_ofNat _ (by omega), Nat.div_div_eq_div_mul, ← pow_add, hsum]

theorem bitLenLo_eq (BH : BitVec 64) : bitLenLo BH = BitVec.ofNat 32 (8 * BH.toNat) := by
  have hshift : (bitLenLo BH).toNat = 8 * (BH.toNat % 2 ^ 29) := by
    rw [bitLenLo, BitVec.toNat_append]
    simp [Nat.shiftLeft_eq, Nat.mul_comm]
  apply BitVec.eq_of_toNat_eq
  rw [hshift, BitVec.toNat_ofNat]
  omega

theorem bitLenHi_eq (BH : BitVec 64) : bitLenHi BH = BitVec.ofNat 32 (8 * BH.toNat / 2 ^ 32) := by
  apply BitVec.eq_of_toNat_eq
  rw [bitLenHi, BitVec.extractLsb'_toNat, Nat.shiftRight_eq_div_pow, BitVec.toNat_ofNat]
  omega

/-- The length field is the number of message bits, modulo 2^64, in little-endian order (R145). -/
theorem lengthByte_eq (BH : BitVec 64) {i : Nat} (hi : i < 8) :
    lengthByte BH i = BitVec.ofNat 8 (8 * BH.toNat / 2 ^ (8 * i)) := by
  rw [lengthByte, bitLenLo_eq, bitLenHi_eq, laneOf_low_high _ hi]

/-! ### The padded stream -/

@[simp] theorem length_leBytes (w : Word) : (leBytes w).length = 4 := rfl

theorem length_padding (N : Nat) : (padding N).length = 1 + zeroCount N + 8 := by
  simp only [padding, List.length_cons, List.length_append, List.length_replicate, length_leBytes]
  omega

theorem length_paddedStream (m : List Byte) : (paddedStream m).length = m.length + 1 + zeroCount m.length + 8 := by
  rw [paddedStream, List.length_append, length_padding]
  omega

theorem paddedLength_ofNat (N : Nat) :
    paddedLength (BitVec.ofNat 64 N) = 64 * (if N % 64 ≤ 55 then 1 else 2) := by
  have hmod : N % 2 ^ 64 % 64 = N % 64 := by omega
  rw [paddedLength, BitVec.toNat_ofNat, hmod]
  split <;> split <;> omega

theorem paddedStream_blocks (m : List Byte) :
    (paddedStream m).length = 64 * (m.length / 64) + paddedLength (BitVec.ofNat 64 m.length) := by
  rw [length_paddedStream, paddedLength_ofNat, zeroCount]
  split <;> omega

/-- Settles O43: the padding reaches to the end of the block that holds the length field. -/
theorem paddedStreamIsWholeBlocks : Obligations.PaddedStreamIsWholeBlocks := by
  intro m
  have hP := paddedLength_ofNat m.length
  have hblocks := paddedStream_blocks m
  exact ⟨length_paddedStream m, by omega, by rw [zeroCount]; omega, by omega, hP⟩

theorem listByte_leBytes (w : Word) {i : Nat} (hi : i < 4) : listByte (leBytes w) i = laneOf w i := by
  interval_cases i <;> rfl

theorem listByte_replicate_zero (n i : Nat) : listByte (List.replicate n 0) i = 0 := by
  rw [listByte, List.getD_eq_getElem?_getD, List.getElem?_getD_replicate_default_eq]

theorem listByte_lengthField (N : Nat) {i : Nat} (hi : i < 8) :
    listByte (leBytes (BitVec.ofNat 32 (8 * N)) ++ leBytes (BitVec.ofNat 32 (N / 2 ^ 29))) i =
      BitVec.ofNat 8 (8 * N / 2 ^ (8 * i)) := by
  have hhigh : N / 2 ^ 29 = 8 * N / 2 ^ 32 := by omega
  rw [hhigh, ← laneOf_low_high _ hi]
  split
  · rw [listByte_append_left _ (by simpa), listByte_leBytes _ ‹_›]
  · rw [listByte_append_right _ (by simpa using ‹¬ i < 4›), length_leBytes, listByte_leBytes _ (by omega)]

/-- What R146 appends: 0x80, the zeros, the length field. -/
theorem listByte_padding (N : Nat) {i : Nat} (hi : i < 1 + zeroCount N + 8) :
    listByte (padding N) i =
      if i = 0 then 0x80 else if i < 1 + zeroCount N then 0
      else BitVec.ofNat 8 (8 * N / 2 ^ (8 * (i - (1 + zeroCount N)))) := by
  cases i with
  | zero => rfl
  | succ i =>
    have htail : listByte (padding N) (i + 1) = listByte (List.replicate (zeroCount N) 0 ++
        (leBytes (BitVec.ofNat 32 (8 * N)) ++ leBytes (BitVec.ofNat 32 (N / 2 ^ 29)))) i := by
      rw [← List.append_assoc]; rfl
    rw [htail, if_neg (Nat.succ_ne_zero i)]
    by_cases hz : i < zeroCount N
    · rw [if_pos (by omega), listByte_append_left _ (by simpa), listByte_replicate_zero]
    · have hindex : i + 1 - (1 + zeroCount N) = i - zeroCount N := by omega
      rw [if_neg (by omega), listByte_append_right _ (by simpa using hz), List.length_replicate,
        listByte_lengthField N (by omega), hindex]

/-! ### What FINISH leaves -/

/-- The padded buffer, in the order of its bytes (R145). -/
theorem byteOf_padBuffer_in_order {BL : Nat} {BH : BitVec 64} (hBL : BL < paddedLength BH - 8) (buf : Vector Byte 128)
    {j : Nat} (hj : j < 128) :
    byteOf (padBuffer BL BH buf) j =
      if j < BL then byteOf buf j
      else if j = BL then 0x80
      else if j < paddedLength BH - 8 then 0
      else if j < paddedLength BH then BitVec.ofNat 8 (8 * BH.toNat % 2 ^ 64 / 2 ^ (8 * (j - (paddedLength BH - 8))))
      else byteOf buf j := by
  rw [byteOf_padBuffer _ _ _ _ hj]
  by_cases hlen : paddedLength BH - 8 ≤ j ∧ j < paddedLength BH
  · rw [if_pos hlen, if_neg (by omega), if_neg (by omega), if_neg (by omega), if_pos hlen.2,
      lengthByte_eq _ (by omega), ofNat_mod_div_byte _ (by omega)]
  · rw [if_neg hlen]
    by_cases hzero : BL + 1 ≤ j ∧ j < paddedLength BH - 8
    · rw [if_pos hzero, if_neg (by omega), if_neg (by omega), if_pos hzero.2]
    · rw [if_neg hzero]
      by_cases hmark : j = BL
      · rw [if_pos hmark, if_neg (by omega), if_pos hmark]
      · rw [if_neg hmark, if_neg hmark]
        by_cases hlt : j < BL
        · rw [if_pos hlt]
        · rw [if_neg hlt, if_neg (by omega), if_neg (by omega)]

theorem compressSpan_H (src : Nat → Byte) (len : Nat) (s : State) :
    (compressSpan src 0 len s).H = hashBlocks src s.H (len / 64) :=
  (absorbBlocks_H src 0 0 (len / 64) s).trans (hashBlocks_congr s.H fun j _ => by rw [Nat.zero_add])

/-- The buffered bytes tell how many blocks the padding needs (R31, R145). -/
theorem paddedLength_of_cursor {s : State} (hcur : CursorOk s.BL s.BH) :
    paddedLength s.BH = if s.BL.toNat < 56 then 64 else 128 := by
  rw [paddedLength, ← hcur]

theorem mark_lt_lengthField {s : State} (hcur : CursorOk s.BL s.BH) : s.BL.toNat < paddedLength s.BH - 8 := by
  have hBL : s.BL.toNat < 64 := s.BL.isLt
  rw [paddedLength_of_cursor hcur]
  split <;> omega

/-- Settles O40: the padded buffer is the block source, and the cursor tells its length. -/
theorem finishPadsAndCompresses : Obligations.FinishPadsAndCompresses := by
  intro s hb hf hcur P
  have hP : paddedLength s.BH = P := paddedLength_of_cursor hcur
  refine ⟨_, exec_toInstr_of_ok (c := .finish) hb rfl (finishCmd_live hf), rfl, ?_, fun j hj => ?_, rfl⟩
  · rw [← hP]
    exact compressSpan_H _ _ s
  · rw [← hP]
    exact byteOf_padBuffer_in_order (mark_lt_lengthField hcur) s.buf hj

/-! ### The digest -/

theorem hashBlocks_add (src : Nat → Byte) (h : Vector Word 4) (a b : Nat) :
    hashBlocks src h (a + b) = hashBlocks (fun j => src (64 * a + j)) (hashBlocks src h a) b := by
  induction b with
  | zero => rfl
  | succ b ih =>
    have hblk : blockAt src (64 * (a + b)) = blockAt (fun j => src (64 * a + j)) (64 * b) :=
      blockAt_congr fun j _ => congrArg src (by omega)
    rw [← Nat.add_assoc, hashBlocks, ih, hblk, hashBlocks]

theorem AbsorbedStream.cursorOk {m : List Byte} {s : State} (hm : AbsorbedStream m s) : CursorOk s.BL s.BH := by
  obtain ⟨-, hBL, hBH, -⟩ := hm
  rw [CursorOk, hBL, hBH, BitVec.toNat_ofNat]
  omega

/-- The padded buffer ends the padded stream: the bytes of the last partial block of the message, then R146's padding. -/
theorem byteOf_padBuffer_eq_paddedStream {m : List Byte} {s : State} (hm : AbsorbedStream m s) {j : Nat}
    (hj : j < paddedLength s.BH) :
    byteOf (padBuffer s.BL.toNat s.BH s.buf) j = listByte (paddedStream m) (64 * (m.length / 64) + j) := by
  have hmark := mark_lt_lengthField hm.cursorOk
  have hmax := paddedLength_le s.BH
  obtain ⟨-, hBL, hBH, hbuf⟩ := hm
  have hlen := length_paddedStream m
  have hblocks := paddedStream_blocks m
  rw [← hBH] at hblocks
  rw [byteOf_padBuffer_in_order hmark _ (by omega), paddedStream]
  by_cases hlt : j < s.BL.toNat
  · rw [if_pos hlt, listByte_append_left _ (by omega), hbuf j (by omega)]
  · have hpos : 64 * (m.length / 64) + j - m.length = j - s.BL.toNat := by omega
    rw [if_neg hlt, listByte_append_right _ (by omega), hpos, listByte_padding _ (by omega)]
    by_cases hfirst : j = s.BL.toNat
    · rw [if_pos hfirst, if_pos (by omega)]
    · have hnext : j - s.BL.toNat ≠ 0 := by omega
      rw [if_neg hfirst, if_neg hnext]
      by_cases hzero : j < paddedLength s.BH - 8
      · rw [if_pos hzero, if_pos (by omega)]
      · have hindex : j - s.BL.toNat - (1 + zeroCount m.length) = j - (paddedLength s.BH - 8) := by omega
        have hbits : 8 * s.BH.toNat % 2 ^ 64 = 8 * m.length % 2 ^ 64 := by
          rw [hBH, BitVec.toNat_ofNat]
          omega
        rw [if_neg hzero, if_pos hj, if_neg (by omega), hindex, hbits, ofNat_mod_div_byte _ (by omega)]

/-- The whole blocks of the message, and then those of the padded buffer, are the padded stream. -/
theorem md5_eq_hashBlocks_padBuffer {m : List Byte} {s : State} (hm : AbsorbedStream m s) :
    md5 m = hashBlocks (byteOf (padBuffer s.BL.toNat s.BH s.buf)) s.H (paddedLength s.BH / 64) := by
  have hend := fun j => byteOf_padBuffer_eq_paddedStream (j := j) hm
  obtain ⟨hH, -, hBH, -⟩ := hm
  have hblocks : (paddedStream m).length / 64 = m.length / 64 + paddedLength s.BH / 64 := by
    rw [paddedStream_blocks m, ← hBH]
    omega
  have hmessage : hashBlocks (listByte (paddedStream m)) IV (m.length / 64) = s.H := by
    rw [hH, paddedStream]
    exact hashBlocks_congr IV fun j hj => listByte_append_left _ (by omega)
  rw [md5, hblocks, hashBlocks_add, hmessage]
  exact hashBlocks_congr s.H fun j hj => (hend j (by omega)).symm

/-- Byte `4k + j` of the digest is lane `j` of word `k` (R54). -/
theorem digestBytes_getD (h : Vector Word 4) {k j : Nat} (hk : k < 4) (hj : j < 4) :
    (digestBytes h).getD (4 * k + j) 0 = laneOf (wordOf h k) j := by
  interval_cases k <;> interval_cases j <;> rfl

theorem digestWord_of_finished {s : State} (hf : s.FIN = true) (hb : s.BUSY = false) (k : Nat) :
    digestWord s k = wordOf s.H k := by
  simp [digestWord, hf, hb]

/-- Settles O42: FINISH compresses the end of the padded stream, and the DIGEST registers show the words it leaves. -/
theorem finishYieldsTheDigestOfTheStream : Obligations.FinishYieldsTheDigestOfTheStream := by
  intro m s hb hf hm
  obtain ⟨t, ht, hfin, hH⟩ : ∃ t, exec .finish s = .next t ∧ t.FIN = true ∧ t.H = md5 m :=
    ⟨_, exec_toInstr_of_ok (c := .finish) hb rfl (finishCmd_live hf), rfl,
      (compressSpan_H _ _ s).trans (md5_eq_hashBlocks_padBuffer hm).symm⟩
  refine ⟨t, ht, hfin, hH, fun k => ⟨_, rfl, ?_⟩⟩
  have hword : digestWord (complete t) k.toNat = wordOf (md5 m) k.toNat := by
    rw [digestWord_of_finished (s := complete t) hfin rfl, complete_H, hH]
  rw [returnRead_rdata, hword]
  exact ⟨rfl, fun j hj => digestBytes_getD _ k.isLt hj⟩

end Sys2Proof.Machine
end

section
/-! The host's bus transactions, 42_host_access.md R180 to R188: writes made while BUSY=1 (O22), writes to CMD and MSGk
(O50, O51), the reads (O28, O52, O53, O54, O55), and the transactions that do nothing (O56). -/

namespace Sys2Proof.Machine

/-! ### Writes to CMD and MSGk -/

theorem exec_wrMsg_busy {s : State} (hb : s.BUSY = true) (k : BitVec 4) (v : Word) :
    exec (.wrMsg k v) s = .next (discardWrite s) := congrArg _ (if_pos hb)

theorem exec_wrMsg_ready {s : State} (hb : s.BUSY = false) (k : BitVec 4) (v : Word) :
    exec (.wrMsg k v) s = .next (setMsg k.toNat v s) := by
  rw [exec, execWrMsg, hb, if_neg Bool.false_ne_true]

theorem exec_wrCmd_busy {s : State} (hb : s.BUSY = true) (v : Word) : exec (.wrCmd v) s = .next (discardWrite s) :=
  congrArg _ (issue_busy _ hb)

/-- Settles O22: a command is discarded whatever its rule, and so is a write to MSGk. -/
theorem writesWhileBusyOnlySetOvr : Obligations.WritesWhileBusyOnlySetOvr := by
  intro s hb
  refine ⟨fun i c hc => ?_, exec_wrCmd_busy hb, exec_wrMsg_busy hb⟩
  obtain ⟨x, rfl, rfl⟩ | rfl := cmdWord_cases hc
  · rw [exec_toInstr_eq_wrCmd]
    exact exec_wrCmd_busy hb _
  · exact congrArg _ (issue_busy _ hb)

theorem acceptWord_of_error {v : Word} {e : ErrCode} (hd : decodeCmd Config.numSlots v = .error e) (s : State) :
    acceptWord v s = .error e := by rw [acceptWord, hd]

theorem acceptWord_of_ok {v : Word} {c : Cmd} (hd : decodeCmd Config.numSlots v = .ok c) (s : State) :
    acceptWord v s = runCmd c s := by rw [acceptWord, hd]

theorem exec_wrCmd_of_error {v : Word} {e : ErrCode} {s : State} (hb : s.BUSY = false)
    (he : acceptWord v s = .error e) : exec (.wrCmd v) s = .next (raiseErr e s) := by
  rw [exec, execWrCmd, he, issue_error e hb]

theorem exec_wrCmd_of_ok {v : Word} {s t : State} (hb : s.BUSY = false) (ht : acceptWord v s = .ok t) :
    exec (.wrCmd v) s = .next (beginBusy t) := by
  rw [exec, execWrCmd, ht, issue_ok t hb]

/-- Settles O50, by who ends the command: the decoder, the command's rule with a code, or the rule with a state. -/
theorem writeCmdRunsTheDecodedCommand : Obligations.WriteCmdRunsTheDecodedCommand := by
  intro v s hb
  refine ⟨fun e hd => ?_, fun c e hd he => ?_, fun c t hd ht => ?_⟩
  · exact exec_wrCmd_of_error hb (acceptWord_of_error hd s)
  · exact exec_wrCmd_of_error hb ((acceptWord_of_ok hd s).trans he)
  · exact exec_wrCmd_of_ok hb ((acceptWord_of_ok hd s).trans ht)

/-- A lane of a word is a base-256 digit of its value (R9). -/
theorem laneOf_toNat (w : Word) (j : Nat) : (laneOf w j).toNat = w.toNat / 2 ^ (8 * j) % 256 := by
  rw [laneOf, BitVec.extractLsb'_toNat, Nat.shiftRight_eq_div_pow]

theorem msgByte_lane (MSG : Vector Word 16) {k j : Nat} (hj : j < 4) :
    msgByte MSG (4 * k + j) = laneOf (wordOf MSG k) j := by
  rw [msgByte, show (4 * k + j) / 4 = k by omega, show (4 * k + j) % 4 = j by omega]

theorem wordOf_setIfInBounds_ne {n : Nat} (v : Vector Word n) {k j : Nat} (h : k ≠ j) (x : Word) :
    wordOf (v.setIfInBounds k x) j = wordOf v j :=
  by_contra fun hne => h (eq_of_wordOf_setIfInBounds_ne hne).1

/-- Settles O51: the lanes of word `k` are the message bytes `4k` to `4k + 3`, and any other message byte is a lane of
another word. -/
theorem writeMsgPlacesFourMessageBytes : Obligations.WriteMsgPlacesFourMessageBytes := by
  intro k v s hb
  have hword : wordOf (setMsg k.toNat v s).MSG k.toNat = v := by
    rw [setMsg_MSG, wordOf_setIfInBounds _ _ _ _ k.isLt, if_pos rfl]
  refine ⟨_, exec_wrMsg_ready hb k v, hword, fun j hj => ?_, fun p hp => ?_, rfl⟩
  · rw [msgByte_lane _ hj, hword, laneOf_toNat]
  · rw [msgByte, setMsg_MSG, wordOf_setIfInBounds_ne _ (by omega), msgByte]

/-! ### Reads -/

theorem isRead_encode_of_cmdWord {i : Instr} (h : i.cmdWord?.isSome = true) : isRead (encode i) = false := by
  obtain ⟨c, hc⟩ := Option.isSome_iff_exists.mp h
  obtain ⟨x, rfl, -⟩ | rfl := cmdWord_cases hc
  · rw [encode_toInstr, isRead]
  · rfl

theorem isRead_encode_wrMsg (k : BitVec 4) (v : Word) : isRead (encode (.wrMsg k v)) = false := by
  have h : ∀ k : BitVec 4, isWrite (0b1_01#3 ++ k) = true := by decide
  exact congrArg not (h k)

/-- Settles O28: what changes more than the value returned is a command or a write to MSGk, and neither is a read. -/
theorem readsHaveNoSideEffect : Obligations.ReadsHaveNoSideEffect := by
  intro i s t hr h
  obtain ⟨hw | ⟨v, rfl⟩, -⟩ | ⟨-, -, ⟨k, v, rfl, -⟩ | ⟨k, v, rfl, -⟩ | ⟨-, ht⟩⟩ := exec_cases h
  · simp [isRead_encode_of_cmdWord hw] at hr
  · cases hr
  · simp [isRead_encode_wrMsg] at hr
  · simp [isRead_encode_wrMsg] at hr
  · exact ⟨ht, by rw [ht]⟩

theorem exec_rdStatus_ready {s : State} (hb : s.BUSY = false) :
    exec .rdStatus s = .next { s with rdata := statusExact s } := congrArg _ (returnOrDraw_ready _ _ hb)

theorem exec_rdStatus_busy {s : State} (hb : s.BUSY = true) :
    exec .rdStatus s = .next { s with rdata := statusDrawn s, draws := s.draws + 1 } :=
  congrArg _ (returnOrDraw_busy _ _ hb)

theorem slotv_getLsbD (s : State) {k : Nat} (hk : k < 8) : (slotv s).getLsbD k = slotValid s k := by
  simp only [slotv, BitVec.getLsbD_append]
  interval_cases k <;> simp

/-- There is no valid slot past the last (R27, R181). -/
theorem slotValid_eq (s : State) (k : Nat) :
    slotValid s k = (decide (k < Config.numSlots) && (slotOf s k).valid) := by
  by_cases hk : k < Config.numSlots
  · simp [slotValid, hk]
  · simp [slotValid, hk, slotOf_of_le s k (Nat.le_of_not_lt hk), Slot.empty]

/-- Bit `k` of a byte field of a word, by where the field starts. -/
theorem getLsbD_add_of_extractLsb' {w : Word} {start : Nat} {x : BitVec 8} (h : w.extractLsb' start 8 = x) {k : Nat}
    (hk : k < 8) : w.getLsbD (start + k) = x.getLsbD k := by
  rw [← h, BitVec.getLsbD_extractLsb', decide_eq_true hk, Bool.true_and]

/-- Settles O52: each field of the STATUS word is the state it reflects. -/
theorem statusReadReturnsEveryField : Obligations.StatusReadReturnsEveryField := by
  intro s hb
  obtain ⟨hbusy, hfin, hovr, h3, herr, hbl, h14, hsv, h24⟩ := packStatus_fields (slotv s) s.BL s.ERR s.OVR s.FIN s.BUSY
  refine ⟨_, exec_rdStatus_ready hb, rfl, hbusy.trans hb, hfin, hovr, h3, herr, hbl, h14, fun k hk => ?_, h24⟩
  calc (statusExact s).getLsbD (16 + k) = (slotv s).getLsbD k := getLsbD_add_of_extractLsb' hsv hk
    _ = slotValid s k := slotv_getLsbD s hk
    _ = (decide (k < Config.numSlots) && (slotOf s k).valid) := slotValid_eq s k

/-- Settles O53: the fields that are drawn leave the others where they are, and a draw has no valid bit past the last
slot. -/
theorem statusReadWhileBusyIsExactInThreeFields : Obligations.StatusReadWhileBusyIsExactInThreeFields := by
  intro s hb
  obtain ⟨hbusy, -, hovr, h3, herr, -, h14, hsv, h24⟩ := packStatus_fields ((Config.freeSlotv s.draws).setWidth 8)
    (Config.freeBuflen s.draws) s.ERR s.OVR (Config.freeFinished s.draws) s.BUSY
  exact ⟨_, exec_rdStatus_busy hb, rfl, hbusy.trans hb, hovr, herr, h3, h14, h24, fun k hk hpast =>
    (getLsbD_add_of_extractLsb' hsv hk).trans (freeSlotv_past s.draws hpast)⟩

theorem bytesLo_toNat (s : State) : (bytesLo s).toNat = s.BH.toNat % 2 ^ 32 := by
  rw [bytesLo, BitVec.extractLsb'_toNat, Nat.shiftRight_zero]

theorem bytesHi_toNat (s : State) : (bytesHi s).toNat = s.BH.toNat / 2 ^ 32 := by
  rw [bytesHi, BitVec.extractLsb'_toNat, Nat.shiftRight_eq_div_pow]
  exact Nat.mod_eq_of_lt (Nat.div_lt_of_lt_mul s.BH.isLt)

/-- Settles O54: while BUSY=0 the halves are exact, and while BUSY=1 they are draws. -/
theorem byteCountReadsReturnItsHalves : Obligations.ByteCountReadsReturnItsHalves := by
  refine fun s => ⟨_, _, rfl, rfl, fun hb => ?_, fun hb => ?_⟩
  · rw [returnOrDraw_ready _ _ hb, returnOrDraw_ready _ _ hb]
    exact ⟨rfl, rfl, bytesLo_toNat s, bytesHi_toNat s⟩
  · rw [returnOrDraw_busy _ _ hb, returnOrDraw_busy _ _ hb]
    exact ⟨rfl, rfl⟩

theorem digestWord_of_busy {s : State} (hb : s.BUSY = true) (k : Nat) : digestWord s k = 0 := by
  simp [digestWord, hb]

theorem exec_rdDigest_of_digestWord {k : BitVec 2} {s : State} {v : Word} (hv : digestWord s k.toNat = v) :
    exec (.rdDigest k) s = .next { s with rdata := v } := by
  rw [← hv]; rfl

/-- Settles O55, by the gate of the digest. -/
theorem digestReadIsGatedByFinAndBusy : Obligations.DigestReadIsGatedByFinAndBusy := by
  refine fun k s => ⟨fun hf hb => ?_, fun h => ?_⟩
  · exact exec_rdDigest_of_digestWord (digestWord_of_finished hf hb _)
  · obtain hf | hb := h
    · exact exec_rdDigest_of_digestWord (digestWord_of_live hf _)
    · exact exec_rdDigest_of_digestWord (digestWord_of_busy hb _)

/-! ### The transactions that do nothing -/

/-- The reads R185 lists by selector: the table of R77 names one that returns 0 for each. -/
theorem hostStep_zeroRead {sel : BitVec 7} (v : Word) (s : State)
    (h : sel.toNat = 0x00 ∨ (0x08 ≤ sel.toNat ∧ sel.toNat ≤ 0x3F)) :
    hostStep (.bus sel v) s = .next (returnRead 0 s) := by
  rw [hostStep_of_decode_ok (selectorTableCoversEverySelector sel v).1]
  generalize sel.toNat = x at *
  obtain h | h | h | h : x = 0x00 ∨ (0x08 ≤ x ∧ x ≤ 0x0F) ∨ (0x10 ≤ x ∧ x ≤ 0x1F) ∨ (0x20 ≤ x ∧ x ≤ 0x3F) := by omega
  all_goals simp (disch := omega) only [if_pos, if_neg]
  all_goals rfl

/-- The writes R185 lists by selector: the table of R77 names one that is ignored for each. -/
theorem hostStep_ignoredWrite {sel : BitVec 7} (v : Word) (s : State)
    (h : (0x41 ≤ sel.toNat ∧ sel.toNat ≤ 0x4F) ∨ 0x60 ≤ sel.toNat) : hostStep (.bus sel v) s = .next s := by
  rw [hostStep_of_decode_ok (selectorTableCoversEverySelector sel v).1]
  generalize sel.toNat = x at *
  obtain h | h | h | h | h : x = 0x41 ∨ (x = 0x42 ∨ x = 0x43) ∨ (0x44 ≤ x ∧ x ≤ 0x47) ∨ (0x48 ≤ x ∧ x ≤ 0x4F) ∨
    0x60 ≤ x := by omega
  all_goals simp (disch := omega) only [if_pos, if_neg]
  all_goals rfl

/-- Settles O56: by instruction the rules are these answers, and by selector the table names one of these
instructions. -/
theorem otherTransactionsReadZeroOrAreIgnored : Obligations.OtherTransactionsReadZeroOrAreIgnored := fun s =>
  ⟨rfl, fun _ => rfl, fun _ => rfl, fun _ => rfl, fun _ => rfl, fun _ _ => rfl, fun _ _ => rfl, fun _ _ => rfl,
    fun _ _ => rfl, fun _ v h => hostStep_zeroRead v s h, fun _ v h => hostStep_ignoredWrite v s h⟩

end Sys2Proof.Machine
end

section
/-! Errors and the flags of STATUS, 60_exceptions.md R200 to R210: the outcome codes (O7), which cause decides the outcome
of a command (O20, O39), what a rejected command changes (O21), that no step stops (O12), and who writes OVR and FIN (O23,
O24). -/

namespace Sys2Proof.Machine

/-- Settles O7: the numbers, read off the table of codes. -/
theorem outcomeCodesHaveTheirNumbers : Obligations.OutcomeCodesHaveTheirNumbers := rfl

/-- Settles O12, by the event the queue brings: each has an effect, and every host transaction a next state. -/
theorem everyStepContinues : Obligations.EveryStepContinues := by
  intro s
  cases hp : s.pending with
  | nil => exact ⟨_, step_of_pending_nil hp⟩
  | cons e rest =>
    cases e with
    | complete => exact ⟨_, step_of_pending_complete hp⟩
    | rst level => exact ⟨_, step_of_pending_rst hp⟩
    | host w =>
      cases hr : s.rst with
      | true => exact ⟨_, step_of_pending_host_held hp hr⟩
      | false =>
        obtain ⟨t, ht⟩ := hostStep_next w { s with pending := rest }
        exact ⟨t, (step_of_pending_host hp hr).trans ht⟩

/-! ### Rejected commands -/

theorem not_command {i : Instr} (hword : i.cmdWord? = none) (hwr : ∀ v, i ≠ .wrCmd v) :
    ¬ (i.cmdWord?.isSome = true ∨ ∃ v, i = .wrCmd v) := by
  simp [hword, hwr]

/-- Settles O21, by what an instruction can do: a rejection is the write of ERR itself, and neither a discarded write nor
an instruction that is no command writes ERR. -/
theorem rejectedCommandChangesOnlyErr : Obligations.RejectedCommandChangesOnlyErr := by
  intro i s t h
  obtain ⟨hcmd, hrun⟩ | ⟨hword, hwr, hrun⟩ := exec_cases h
  case inl =>
    have other : i.cmdWord? = none → (∀ v, i ≠ .wrCmd v) → t.ERR = s.ERR :=
      fun hword hwr => absurd hcmd (not_command hword hwr)
    obtain ⟨hbusy, rfl⟩ | ⟨hready, e, -, rfl⟩ | ⟨hready, c, u, -, -, rfl⟩ := hrun
    · exact ⟨fun _ hready => absurd hbusy (by simp [hready]), fun _ => rfl, other⟩
    · exact ⟨fun _ _ _ => rfl, fun hbusy => absurd hbusy (by simp [hready]), other⟩
    · exact ⟨fun _ _ he => absurd rfl he, fun hbusy => absurd hbusy (by simp [hready]), other⟩
  case inr =>
    have hERR : t.ERR = s.ERR := by
      obtain ⟨k, v, -, -, rfl⟩ | ⟨k, v, -, -, rfl⟩ | ⟨-, ht⟩ := hrun
      · rfl
      · rfl
      · rw [ht]
    exact ⟨fun hcmd => absurd hcmd (not_command hword hwr), fun _ => hERR, fun _ _ => hERR⟩

theorem updateCmd_finished {s : State} (n : BitVec 7) (hf : s.FIN = true) : updateCmd n s = .error .useAfterFinish :=
  if_pos hf

/-- Settles O39: the length is checked before the rule, which has one code of its own. -/
theorem updateIsRejectedByItsErrors : Obligations.UpdateIsRejectedByItsErrors := by
  refine fun n s hb => ⟨fun hn hf => ?finished, fun hn => ?badLen⟩
  case finished => exact exec_toInstr_of_error (c := .update n) hb (decide_eq_true hn) (updateCmd_finished n hf)
  case badLen =>
    have hl : ¬ decide (n.toNat ≤ 64) = true := by simpa using hn
    exact exec_toInstr_of_not_legal (c := .update n) hb hl

/-! ### The words that decode to a command -/

/-- Only a word with OP 0x8 to 0xF is read as a reserved opcode (R75). -/
theorem opField_of_decodeCmdRow_reservedOpcode {c w : Word} (h : decodeCmdRow c = .ok (.reservedOpcode w)) :
    8 ≤ (opField c).toNat := by
  unfold decodeCmdRow at h
  split at h
  case h_1 | h_2 | h_3 | h_4 | h_5 | h_6 | h_7 | h_8 => cases (ifClear_eq_ok.mp h).2
  case h_9 =>
    simp only [imp_false] at *
    omega

/-- With OP 0x0 to 0x7, a row of the table reads the word of a command. -/
theorem eq_encodeCmd_of_decodeCmdRow {c : Word} {i : Instr} (h : decodeCmdRow c = .ok i) (hop : c.toNat % 16 < 8) :
    ∃ x, c = encodeCmd x := by
  obtain ⟨x, -, hx⟩ | rfl := cmdWord_cases (cmdWord_of_decodeCmdRow h)
  · exact ⟨x, hx⟩
  · have hres := opField_of_decodeCmdRow_reservedOpcode h
    rw [opField_toNat] at hres
    omega

theorem exists_encodeCmd_of_not_reservedBitSet {c : Word} (hop : c.toNat % 16 < 8) (h : ¬ ReservedBitSet c) :
    ∃ x, c = encodeCmd x := by
  cases hd : decodeCmdRow c with
  | error e => exact absurd (reservedBitSet_of_decodeCmdRow_error hd) h
  | ok i => exact eq_encodeCmd_of_decodeCmdRow hd hop

theorem not_reservedBitSet_encodeCmd (x : Cmd) : ¬ ReservedBitSet (encodeCmd x) := by
  unfold ReservedBitSet
  cases x with
  | nop | reset | finish | clean => decide
  | update n => revert n; decide
  | save k | restore k | drop k => revert k; decide

/-- With a checked bit set, a word with OP 0x0 to 0x7 is rejected by the block's decoder (R74, R75). -/
theorem decodeCmd_of_reservedBitSet {c : Word} (hop : c.toNat % 16 < 8) (h : ReservedBitSet c) :
    decodeCmd Config.numSlots c = .error .badOp := by
  cases hd : decodeCmdRow c with
  | error e => exact (decodeCmd_of_decodeCmdRow_error hd).2
  | ok i =>
    obtain ⟨x, rfl⟩ := eq_encodeCmd_of_decodeCmdRow hd hop
    exact absurd h (not_reservedBitSet_encodeCmd x)

/-! ### The first cause -/

/-- The causes R203 has left for a word whose checked bits are zero, in its order: the outcome `r` of the command of
opcode `op` with the operand `n` or `k`, issued in `s` while BUSY=0. -/
def ReportsFirstCause (op n k : Nat) (s : State) (r : Host.Outcome State Fault Refusal) : Prop :=
  if op = 2 ∧ 64 < n then r = .next (raiseErr .badLen s)
  else if 5 ≤ op ∧ Config.numSlots ≤ k then r = .next (raiseErr .badSlot s)
  else if op = 2 ∧ s.FIN = true then r = .next (raiseErr .useAfterFinish s)
  else if op = 5 ∧ s.FIN = true then r = .next (raiseErr .saveFinished s)
  else if op = 6 ∧ (slotOf s k).valid = false then r = .next (raiseErr .emptySlot s)
  else ∃ t, r = .next t ∧ t.ERR = .ok

/-- A command that runs ends with the code OK (R140). -/
theorem exec_toInstr_ERR_ok {c : Cmd} {s u : State} (hb : s.BUSY = false) (hl : c.toInstr.legal = true)
    (hu : runCmd c s = .ok u) : ∃ t, exec c.toInstr s = .next t ∧ t.ERR = .ok :=
  ⟨_, exec_toInstr_of_ok hb hl hu, rfl⟩

theorem exec_finish_ERR_ok {s : State} (hb : s.BUSY = false) : ∃ t, exec .finish s = .next t ∧ t.ERR = .ok := by
  cases hf : s.FIN with
  | true => exact exec_toInstr_ERR_ok (c := .finish) hb rfl (finishCmd_finished hf)
  | false => exact exec_toInstr_ERR_ok (c := .finish) hb rfl (finishCmd_live hf)

theorem exec_update_reportsFirstCause {s : State} (hb : s.BUSY = false) (m : BitVec 7) (k : Nat) :
    ReportsFirstCause 2 m.toNat k s (exec (.update m) s) := by
  obtain ⟨finished, badLen⟩ := updateIsRejectedByItsErrors m s hb
  simp only [ReportsFirstCause, Nat.reduceLeDiff, Nat.reduceEqDiff, true_and, false_and, if_false]
  split
  case isTrue hlong => exact badLen hlong
  case isFalse hlong =>
    have hlegal : m.toNat ≤ 64 := Nat.le_of_not_lt hlong
    split
    case isTrue hf => exact finished hlegal hf
    case isFalse hf =>
      obtain ⟨u, -, hexec⟩ := exec_update_live hb (Bool.eq_false_of_not_eq_true hf) hlegal
      exact ⟨_, hexec, rfl⟩

theorem exec_save_reportsFirstCause {s : State} (hb : s.BUSY = false) (j : BitVec 4) (n : Nat) :
    ReportsFirstCause 5 n j.toNat s (exec (.save j) s) := by
  obtain ⟨badSlot, finished, -⟩ := slotCommandsAreRejectedByTheirErrors j s hb
  simp only [ReportsFirstCause, Nat.reduceLeDiff, Nat.reduceEqDiff, true_and, false_and, if_false]
  split
  case isTrue hpast => exact (badSlot hpast).1
  case isFalse hpast =>
    have hlegal : j.toNat < Config.numSlots := Nat.lt_of_not_le hpast
    split
    case isTrue hf => exact finished hlegal hf
    case isFalse hf =>
      exact exec_toInstr_ERR_ok (c := .save j) hb (decide_eq_true hlegal)
        (saveCmd_live j (Bool.eq_false_of_not_eq_true hf))

theorem exec_restore_reportsFirstCause {s : State} (hb : s.BUSY = false) (j : BitVec 4) (n : Nat) :
    ReportsFirstCause 6 n j.toNat s (exec (.restore j) s) := by
  obtain ⟨badSlot, -, empty⟩ := slotCommandsAreRejectedByTheirErrors j s hb
  simp only [ReportsFirstCause, Nat.reduceLeDiff, Nat.reduceEqDiff, true_and, false_and, if_false]
  split
  case isTrue hpast => exact (badSlot hpast).2.1
  case isFalse hpast =>
    have hlegal : j.toNat < Config.numSlots := Nat.lt_of_not_le hpast
    split
    case isTrue hv => exact empty hlegal hv
    case isFalse hv =>
      exact exec_toInstr_ERR_ok (c := .restore j) hb (decide_eq_true hlegal)
        (restoreCmd_valid (Bool.eq_true_of_not_eq_false hv))

theorem exec_drop_reportsFirstCause {s : State} (hb : s.BUSY = false) (j : BitVec 4) (n : Nat) :
    ReportsFirstCause 7 n j.toNat s (exec (.drop j) s) := by
  obtain ⟨badSlot, -⟩ := slotCommandsAreRejectedByTheirErrors j s hb
  simp only [ReportsFirstCause, Nat.reduceLeDiff, Nat.reduceEqDiff, true_and, false_and, if_false]
  split
  case isTrue hpast => exact (badSlot hpast).2.2
  case isFalse hpast =>
    exact exec_toInstr_ERR_ok (c := .drop j) hb (decide_eq_true (Nat.lt_of_not_le hpast)) rfl

theorem encodeCmd_update_fields (n : BitVec 7) :
    (encodeCmd (.update n)).toNat % 16 = 2 ∧ (encodeCmd (.update n)).toNat / 2 ^ 8 % 128 = n.toNat := by
  revert n; decide

theorem encodeCmd_save_fields (k : BitVec 4) :
    (encodeCmd (.save k)).toNat % 16 = 5 ∧ (encodeCmd (.save k)).toNat / 2 ^ 16 % 16 = k.toNat := by
  revert k; decide

theorem encodeCmd_restore_fields (k : BitVec 4) :
    (encodeCmd (.restore k)).toNat % 16 = 6 ∧ (encodeCmd (.restore k)).toNat / 2 ^ 16 % 16 = k.toNat := by
  revert k; decide

theorem encodeCmd_drop_fields (k : BitVec 4) :
    (encodeCmd (.drop k)).toNat % 16 = 7 ∧ (encodeCmd (.drop k)).toNat / 2 ^ 16 % 16 = k.toNat := by
  revert k; decide

/-- A command reports the first of its causes, told by the fields of its word. -/
theorem exec_toInstr_reportsFirstCause {s : State} (hb : s.BUSY = false) (x : Cmd) :
    ReportsFirstCause ((encodeCmd x).toNat % 16) ((encodeCmd x).toNat / 2 ^ 8 % 128)
      ((encodeCmd x).toNat / 2 ^ 16 % 16) s (exec x.toInstr s) := by
  cases x with
  | nop => exact exec_toInstr_ERR_ok (c := .nop) hb rfl rfl
  | reset => exact exec_toInstr_ERR_ok (c := .reset) hb rfl rfl
  | finish => exact exec_finish_ERR_ok hb
  | clean => exact exec_toInstr_ERR_ok (c := .clean) hb rfl rfl
  | update n =>
    obtain ⟨hop, hn⟩ := encodeCmd_update_fields n
    rw [hop, hn]
    exact exec_update_reportsFirstCause hb n _
  | save k =>
    obtain ⟨hop, hk⟩ := encodeCmd_save_fields k
    rw [hop, hk]
    exact exec_save_reportsFirstCause hb k _
  | restore k =>
    obtain ⟨hop, hk⟩ := encodeCmd_restore_fields k
    rw [hop, hk]
    exact exec_restore_reportsFirstCause hb k _
  | drop k =>
    obtain ⟨hop, hk⟩ := encodeCmd_drop_fields k
    rw [hop, hk]
    exact exec_drop_reportsFirstCause hb k _

/-- Settles O20: before the command come the discarded write and the checks of R74, and a word that passes them is the
word of a command. -/
theorem firstCauseInPriorityOrderWins : Obligations.FirstCauseInPriorityOrderWins := by
  intro c s op n k
  by_cases hb : s.BUSY = true
  · rw [if_pos hb]
    exact exec_wrCmd_busy hb c
  rw [if_neg hb]
  have hready : s.BUSY = false := Bool.eq_false_of_not_eq_true hb
  have badOp (hd : decodeCmd Config.numSlots c = .error .badOp) : exec (.wrCmd c) s = .next { s with ERR := .badOp } :=
    exec_wrCmd_of_error hready (acceptWord_of_error hd s)
  by_cases hop : 8 ≤ op
  · rw [if_pos hop]
    exact badOp (decodeCmd_of_reserved _ (by rwa [opField_toNat]))
  rw [if_neg hop]
  have hlow : c.toNat % 16 < 8 := Nat.lt_of_not_le hop
  refine ⟨fun hset => badOp (decodeCmd_of_reservedBitSet hlow hset), fun hclear => ?command⟩
  case command =>
    obtain ⟨x, rfl⟩ := exists_encodeCmd_of_not_reservedBitSet hlow hclear
    rw [← exec_toInstr_eq_wrCmd]
    exact exec_toInstr_reportsFirstCause hready x

/-! ### Who writes OVR and FIN -/

/-- The next event is a write that R206 discards. -/
def DiscardsWrite (s : State) : Prop :=
  s.rst = false ∧ s.BUSY = true ∧ ∃ w rest, s.pending = .host w :: rest ∧ isCmdOrMsgWrite w = true

theorem step_OVR_of_discardsWrite {s t : State} (hd : DiscardsWrite s) (h : step s = .next t) : t.OVR = true := by
  obtain ⟨hr, hb, w, rest, hp, hw⟩ := hd
  rw [step_of_pending_host hp hr] at h
  obtain ⟨c, -, -, ⟨-, rfl⟩ | ⟨hready, -⟩ | ⟨hready, -⟩⟩ | ⟨-, -, ⟨-, rfl⟩ | ⟨hready, -⟩⟩ | ⟨-, hno, -⟩ :=
    hostStep_writes h
  · rfl
  · cases hb.symm.trans hready
  · cases hb.symm.trans hready
  · rfl
  · cases hb.symm.trans hready
  · exact absurd hw (by simp [hno])

/-- What can write OVR or FIN in one step: hardware reset, a discarded write, or, with `rst` and BUSY low, a command that
succeeds. Any other step leaves both as they were. -/
theorem step_flags {s t : State} (h : step s = .next t) :
    (t.OVR = false ∧ t.FIN = false ∧ ∃ rest, s.pending = .rst true :: rest) ∨
    (DiscardsWrite s ∧ t.OVR = true ∧ t.FIN = s.FIN) ∨
    (t.OVR = s.OVR ∧ t.FIN = s.FIN) ∨
    (s.rst = false ∧ s.BUSY = false ∧ ∃ w rest c u, s.pending = .host w :: rest ∧
      cmdWrite? w = some (encodeCmd c) ∧ runCmd c { s with pending := rest } = .ok u ∧ t = beginBusy u) := by
  obtain ⟨-, rfl⟩ | ⟨e, rest, hp, ⟨-, rfl⟩ | ⟨rfl, rfl⟩ | ⟨-, rfl⟩ | ⟨w, -, -, rfl⟩ | ⟨w, rfl, hr, h⟩⟩ := step_cases h
  · exact .inr (.inr (.inl ⟨rfl, rfl⟩))
  · exact .inr (.inr (.inl ⟨rfl, rfl⟩))
  · exact .inl ⟨rfl, rfl, rest, hp⟩
  · exact .inr (.inr (.inl ⟨rfl, rfl⟩))
  · refine .inr (.inr (.inl ?_))
    unfold heldInReset
    split <;> exact ⟨rfl, rfl⟩
  · obtain ⟨_, hw, hcm, ⟨hb, rfl⟩ | ⟨-, e, -, rfl⟩ | ⟨hb, c, u, rfl, hu, rfl⟩⟩ |
      ⟨-, hcm, ⟨hb, rfl⟩ | ⟨-, sel, k, v, -, -, rfl⟩⟩ | ⟨-, -, e⟩ := hostStep_writes h
    · exact .inr (.inl ⟨⟨hr, hb, w, rest, hp, hcm⟩, rfl, rfl⟩)
    · exact .inr (.inr (.inl ⟨rfl, rfl⟩))
    · exact .inr (.inr (.inr ⟨hr, hb, w, rest, c, u, hp, hw, hu, rfl⟩))
    · exact .inr (.inl ⟨⟨hr, hb, w, rest, hp, hcm⟩, rfl, rfl⟩)
    · exact .inr (.inr (.inl ⟨rfl, rfl⟩))
    · rw [e]
      exact .inr (.inr (.inl ⟨rfl, rfl⟩))

/-- OVR rises by a discarded write alone. -/
theorem discardsWrite_of_step_OVR {s t : State} (h : step s = .next t) (hs : s.OVR = false) (ht : t.OVR = true) :
    DiscardsWrite s := by
  obtain ⟨hlow, -⟩ | ⟨hd, -⟩ | ⟨hsame, -⟩ | ⟨-, -, w, rest, c, u, -, -, hu, rfl⟩ := step_flags h
  · exact absurd ht (by simp [hlow])
  · exact hd
  · exact absurd ht (by simp [hsame, hs])
  · obtain hsame | ⟨-, hlow⟩ := (runCmd_frame hu).OVR
    · exact absurd ht (by simp [hsame, hs])
    · exact absurd ht (by simp [hlow])

/-- Settles O23: of the writers of a step, a discarded write sets OVR, and hardware reset, RESET and CLEAN clear it. -/
theorem ovrIsStickyAndSetByDiscards : Obligations.OvrIsStickyAndSetByDiscards := by
  intro s t h
  refine ⟨⟨fun ⟨ht, hs⟩ => ⟨hs, discardsWrite_of_step_OVR h hs ht⟩,
    fun ⟨hs, hd⟩ => ⟨step_OVR_of_discardsWrite hd h, hs⟩⟩, fun hs ht => ?falls⟩
  obtain ⟨-, -, hrst⟩ | ⟨-, hhigh, -⟩ | ⟨hsame, -⟩ | ⟨hr, hb, w, rest, c, u, hp, hw, hu, rfl⟩ := step_flags h
  · exact .inl hrst
  · exact absurd ht (by simp [hhigh])
  · exact absurd ht (by simp [hsame, hs])
  · refine .inr ⟨hr, hb, w, rest, encodeCmd c, hp, hw, ?_⟩
    obtain hsame | ⟨rfl | rfl, -⟩ := (runCmd_frame hu).OVR
    · exact absurd ht (by simp [hsame, hs])
    · exact .inl rfl
    · exact .inr rfl

/-- Settles O24: of the writers of a step, FINISH sets FIN, and hardware reset, RESET, CLEAN and RESTORE clear it. -/
theorem finishedFlagHasOnlyItsWriters : Obligations.FinishedFlagHasOnlyItsWriters := by
  intro s t h hne
  obtain ⟨-, hlow, hrst⟩ | ⟨-, -, hsame⟩ | ⟨-, hsame⟩ | ⟨hr, hb, w, rest, c, u, hp, hw, hu, rfl⟩ := step_flags h
  · exact .inl ⟨hlow, hrst⟩
  · exact absurd hsame.symm hne
  · exact absurd hsame.symm hne
  · refine .inr ⟨hr, hb, w, rest, encodeCmd c, hp, hw, ?_⟩
    rw [beginBusy_FIN]
    obtain hsame | ⟨rfl, hset⟩ | ⟨hc, hclear⟩ := (runCmd_frame hu).FIN
    · exact absurd hsame.symm hne
    · rw [if_pos hset]
      rfl
    · rw [if_neg (by simp [hclear])]
      obtain rfl | rfl | ⟨k, rfl⟩ := hc
      · exact .inl rfl
      · exact .inr (.inl rfl)
      · exact .inr (.inr ⟨k, rfl⟩)

end Sys2Proof.Machine
end

section
/-! What moves the block besides the host, 70_reset_and_hazards.md R230, R240: the complete step (O13), the input `rst`
while it is high and as it falls (O16), and that every BUSY window ends once the queue is over (O14). -/

namespace Sys2Proof.Machine

/-- Settles O13, with the complete step as the queue's next event and as what an empty queue leaves to happen. -/
theorem completeStepOnlyClearsBusy : Obligations.CompleteStepOnlyClearsBusy :=
  fun _ _ => ⟨step_of_pending_complete, step_of_pending_nil⟩

/-- Settles O16: a transaction made while `rst` is high is held back from the block, and the fall of `rst` is itself an
event of the queue. -/
theorem resetInputHoldsTheBlock : Obligations.ResetInputHoldsTheBlock :=
  fun _ _ => ⟨fun _ hr hp => step_of_pending_host_held hp hr, step_of_pending_rst⟩

/-- A host transaction made while `rst` = 0 leaves the queue to the host. -/
theorem hostStep_pending {w : HostWord} {s t : State} (h : hostStep w s = .next t) : t.pending = s.pending := by
  obtain ⟨i, -, hx⟩ | ⟨c, -, -, hx⟩ := hostStep_cases h
  · exact (exec_queue hx).1
  · exact (exec_queue hx).1

@[simp] theorem heldInReset_pending (w : HostWord) (s : State) : (heldInReset w s).pending = s.pending := by
  cases hw : isRead w <;> simp [heldInReset, hw]

/-- Every step takes one event from the queue and puts none there. -/
theorem step_pending {s t : State} (h : step s = .next t) : t.pending = s.pending.tail := by
  obtain ⟨hp, rfl⟩ | ⟨e, rest, hp, hcase⟩ := step_cases h
  · simp [hp]
  · rw [hp, List.tail_cons]
    obtain ⟨-, rfl⟩ | ⟨-, rfl⟩ | ⟨-, rfl⟩ | ⟨w, -, -, rfl⟩ | ⟨w, -, -, hw⟩ := hcase
    · rfl
    · rfl
    · rfl
    · exact heldInReset_pending w _
    · exact hostStep_pending hw

/-- A run as long as the queue takes every event from it; the step after the last one is the complete step
(notes/assumptions/2.md), which ends the BUSY window that stands open then. -/
theorem run_past_queue (n : Nat) {s : State} (hn : s.pending.length = n) :
    ∃ t, Host.Core.run Sys2Proof.core (n + 1) s = .next t ∧ t.pending = [] ∧ t.BUSY = false := by
  induction n generalizing s with
  | zero =>
    have hp : s.pending = [] := List.eq_nil_of_length_eq_zero hn
    exact ⟨complete s, run_succ 0 (step_of_pending_nil hp), hp, rfl⟩
  | succ n ih =>
    obtain ⟨u, hu⟩ := everyStepContinues s
    have hlen : u.pending.length = n := by rw [step_pending hu, List.length_tail, hn, Nat.add_sub_cancel]
    obtain ⟨t, hrun, ht⟩ := ih hlen
    exact ⟨t, (run_succ (n + 1) hu).trans hrun, ht⟩

/-- Settles O14, by induction on the length of the queue. -/
theorem busyWindowEndsWithTheQueue : Obligations.BusyWindowEndsWithTheQueue :=
  fun _ => run_past_queue _ rfl

end Sys2Proof.Machine
end

section
/-! The round trips between instructions and host words, 30_encoding.md R70, R71, R77 (O1, O2), and the table-numbered
word that the next step runs (O10). -/

namespace Sys2Proof.Machine

/-! ### Command words -/

/-- The decoder reads a reserved opcode exactly where OP is 0x8 to 0xF (R75). -/
theorem decodeCmdRow_eq_reservedOpcode_iff {c : Word} :
    decodeCmdRow c = .ok (.reservedOpcode c) ↔ 8 ≤ (opField c).toNat := by
  unfold decodeCmdRow
  split
  case h_9 =>
    simp only [imp_false] at *
    simp only [true_iff]
    omega
  all_goals simp [ifClear_eq_ok, *]

/-- The two families of the CMD format are written as their command words (R71, R79). -/
theorem encode_of_cmdWord {i : Instr} {c : Word} (h : i.cmdWord? = some c) : encode i = .cmd c := by
  obtain ⟨x, rfl, rfl⟩ | rfl := cmdWord_cases h
  · exact encode_toInstr x
  · rfl

theorem decode_encode_of_cmdWord {i : Instr} {c : Word} (hwf : i.wellFormed = true) (h : i.cmdWord? = some c) :
    decode (encode i) = .ok i := by
  obtain ⟨x, rfl, rfl⟩ | rfl := cmdWord_cases h
  · rw [encode_toInstr]
    exact decodeCmdRow_encodeCmd x
  · exact decodeCmdRow_eq_reservedOpcode_iff.mpr (of_decide_eq_true hwf)

theorem wellFormed_of_decodeCmdRow {c : Word} {i : Instr} (h : decodeCmdRow c = .ok i) : i.wellFormed = true := by
  obtain ⟨x, rfl, -⟩ | rfl := cmdWord_cases (cmdWord_of_decodeCmdRow h)
  · cases x <;> rfl
  · exact decide_eq_true (decodeCmdRow_eq_reservedOpcode_iff.mp h)

/-! ### Bus words: the selector alone picks the row, and a write carries its data along -/

/-- The instruction with `v` as its write data, if it is a write of the BUS format. -/
def withData (v : Word) : Instr → Instr
  | .wrCmd _ => .wrCmd v
  | .wrMsg k _ => .wrMsg k v
  | .wrStatus _ => .wrStatus v
  | .wrBytes hi _ => .wrBytes hi v
  | .wrDigest k _ => .wrDigest k v
  | .wrReserved48 k _ => .wrReserved48 k v
  | .wrReserved60 k _ => .wrReserved60 k v
  | i => i

/-- The write-data lines reach the instruction as its data and decide nothing else (R77). -/
theorem decodeBus_withData (sel : BitVec 7) (v w : Word) : withData v (decodeBus sel w) = decodeBus sel v := by
  simp only [decodeBus, decodeWrite, decodeRead, apply_ite (withData v)]
  rfl

theorem decode_bus_of_data_zero {sel : BitVec 7} {i : Instr} (h : decodeBus sel 0 = i) (v : Word) :
    decode (.bus sel v) = .ok (withData v i) := by
  rw [← h, decodeBus_withData]
  rfl

/-- Row by row of R77: with data 0, a row's selector is read as that row for every value of its operand field. -/
theorem decode_encode_of_bus {i : Instr} (h : i.cmdWord? = none) : decode (encode i) = .ok i := by
  cases i with
  | nop | reset | update | finish | clean | save | restore | drop | reservedOpcode => cases h
  | rdStatus | rdBytesLo | rdBytesHi | rdCmd | wrCmd | wrStatus => rfl
  | rdDigest k | rdMsg k | rdReserved08 k | rdReserved20 k => revert k; decide
  | wrMsg k v => exact decode_bus_of_data_zero (i := .wrMsg k 0) (by clear h; revert k; decide) v
  | wrBytes hi v => exact decode_bus_of_data_zero (i := .wrBytes hi 0) (by clear h; revert hi; decide) v
  | wrDigest k v => exact decode_bus_of_data_zero (i := .wrDigest k 0) (by clear h; revert k; decide) v
  | wrReserved48 k v => exact decode_bus_of_data_zero (i := .wrReserved48 k 0) (by clear h; revert k; decide) v
  | wrReserved60 k v => exact decode_bus_of_data_zero (i := .wrReserved60 k 0) (by clear h; revert k; decide) v

/-- The encoder drives the data of a write and no data for a read, whichever selector the instruction has. -/
theorem encode_withData {i : Instr} {sel : BitVec 7} {w : Word} (h : encode i = .bus sel w) (v : Word) :
    encode (withData v i) = (HostWord.bus sel v).canonical := by
  cases i with
  | nop | reset | update | finish | clean | save | restore | drop | reservedOpcode => cases h
  | rdStatus | rdBytesLo | rdBytesHi | rdCmd | wrCmd | wrStatus => cases h; rfl
  | rdDigest k | rdMsg k | rdReserved08 k | rdReserved20 k =>
    cases h
    exact (if_neg (by revert k; decide)).symm
  | wrMsg k | wrBytes k | wrDigest k | wrReserved48 k | wrReserved60 k =>
    cases h
    exact (if_pos (by revert k; decide)).symm

/-- Each of the 128 selectors is the one of the row it is read as. -/
theorem encode_decodeBus_zero (sel : BitVec 7) : encode (decodeBus sel 0) = .bus sel 0 := by
  revert sel; decide

theorem encode_decodeBus (sel : BitVec 7) (v : Word) : encode (decodeBus sel v) = (HostWord.bus sel v).canonical := by
  rw [← decodeBus_withData sel v 0]
  exact encode_withData (encode_decodeBus_zero sel) v

theorem wellFormed_decodeBus (sel : BitVec 7) (v : Word) : (decodeBus sel v).wellFormed = true := by
  simp only [decodeBus, decodeWrite, decodeRead, apply_ite Instr.wellFormed]
  simp only [Instr.wellFormed, ite_self]

/-! ### The obligations -/

/-- Settles O1, for the two formats: a command word or a selector with its data. -/
theorem decodeInvertsEncode : Obligations.DecodeInvertsEncode := by
  intro i hwf
  cases hc : i.cmdWord? with
  | some c => exact decode_encode_of_cmdWord hwf hc
  | none => exact decode_encode_of_bus hc

/-- Settles O2, for the two formats: an accepted command word is the word of its instruction, and every selector is the
one of its row. -/
theorem encodeInvertsDecode : Obligations.EncodeInvertsDecode := by
  intro w i h
  cases w with
  | cmd c => exact ⟨wellFormed_of_decodeCmdRow h, encode_of_cmdWord (cmdWord_of_decodeCmdRow h)⟩
  | bus sel v =>
    obtain rfl := Except.ok.inj h
    exact ⟨wellFormed_decodeBus sel v, encode_decodeBus sel v⟩

theorem decode_of_decodeTableWord {nbits w : Nat} {i : Instr} (h : decodeTableWord nbits w = some i) :
    decode (tableHostWord nbits w) = .ok i := by
  unfold decodeTableWord at h
  split at h
  · rename_i hd
    rw [hd, Option.some.inj h]
  · cases h

/-- Settles O10: the placed word is at the head of the queue and `rst` is low, so the step runs what the decoder reads
(O9). -/
theorem placedTableWordRuns : Obligations.PlacedTableWordRuns := fun s nbits w _ h =>
  stepRunsDecodedInstruction (s.withFetchWord nbits w) _ _ _ rfl rfl (decode_of_decodeTableWord h)

end Sys2Proof.Machine
end
